-- ==== Sys2Proof/Word.lean ====
section
/-!
DEFINITION. The word types of the hardware (10_state, 30_encoding R51). All values are unsigned
(00_scope section 5).
-/

namespace Sys2Proof

/-- A memory byte, a general register, a timer or an 8-bit immediate `NN`. -/
abbrev Byte := BitVec 8

/-- An instruction word, I, PC or a stack entry. -/
abbrev Word := BitVec 16

/-- The 12-bit address literal `NNN`. -/
abbrev Addr := BitVec 12

/-- A 4-bit field of an instruction word. -/
abbrev Nibble := BitVec 4

/-- The number of a general register, V0 to VF (R10). -/
abbrev RegIdx := Fin 16

/-- The number of a key, 0 to F (R17). -/
abbrev KeyIdx := Fin 16

/-- The 4 bits that name a register in an instruction word (R51). -/
def RegIdx.bits (x : RegIdx) : Nibble := BitVec.ofFin x

end Sys2Proof
end

