-- ==== Sys2Proof/Config.lean ====
section
/-!
DEFINITION. The implementation parameters of 00_scope R3: what the hardware fixes, what the spec
decides, the one parameter it leaves open (`SHIFT_SOURCE`), and the free value of the random input.
-/

namespace Sys2Proof.Config

/-- `MEM_SIZE`, bytes of memory (R3, R30). -/
@[simp] abbrev memSize : Nat := 4096

/-- `PROG_BASE`, the entry point and the load address (R3, R31). -/
@[simp] abbrev progBase : Nat := 0x200

/-- `MAX_IMAGE`, the longest program image (R3, R181). -/
@[simp] abbrev maxImage : Nat := 3584

/-- `STACK_DEPTH` (R3, R14). -/
@[simp] abbrev stackDepth : Nat := 16

/-- `FONT_BASE`, the address of glyph 0 (R32, the spec's decision D1). -/
def fontBase : Nat := 0x000

/-- `FONT_DATA`, 16 glyphs of 5 bytes, digit 0 first, top row first (R32, the spec's decision D2). -/
def fontData : List Byte :=
  [0xF0, 0x90, 0x90, 0x90, 0xF0] ++ [0x20, 0x60, 0x20, 0x20, 0x70] ++
  [0xF0, 0x10, 0xF0, 0x80, 0xF0] ++ [0xF0, 0x10, 0xF0, 0x10, 0xF0] ++
  [0x90, 0x90, 0xF0, 0x10, 0x10] ++ [0xF0, 0x80, 0xF0, 0x10, 0xF0] ++
  [0xF0, 0x80, 0xF0, 0x90, 0xF0] ++ [0xF0, 0x10, 0x20, 0x40, 0x40] ++
  [0xF0, 0x90, 0xF0, 0x90, 0xF0] ++ [0xF0, 0x90, 0xF0, 0x10, 0xF0] ++
  [0xF0, 0x90, 0xF0, 0x90, 0x90] ++ [0xE0, 0x90, 0xE0, 0x90, 0xE0] ++
  [0xF0, 0x80, 0x80, 0x80, 0xF0] ++ [0xE0, 0x90, 0x90, 0x90, 0xE0] ++
  [0xF0, 0x80, 0xF0, 0x80, 0xF0] ++ [0xF0, 0x80, 0xF0, 0x80, 0x80]

/-- What a reset leaves in memory: the font at `FONT_BASE`, zero elsewhere (R24, R180). -/
def resetByte (a : Nat) : Byte :=
  if fontBase ≤ a ∧ a < fontBase + 80 then fontData.getD (a - fontBase) 0 else 0

/-- The values of `INDEX_ADD_POLICY` (R3, R111). -/
inductive IndexAddPolicy where
  | wrap12
  | wrap12Flag
  deriving DecidableEq, Repr

/-- This hardware's `INDEX_ADD_POLICY` (R3, the spec's decision D5). -/
def indexAddPolicy : IndexAddPolicy := .wrap12

/-- The values of `SPRITE_EDGE` (R3, R123). -/
inductive SpriteEdge where
  | wrap
  | clip
  deriving DecidableEq, Repr

/-- This hardware's `SPRITE_EDGE` (R3, R123, the spec's decision D6). -/
def spriteEdge : SpriteEdge := .wrap

/-- The values of `SHIFT_SOURCE` (R3, R99): which register a shift reads. -/
inductive ShiftSource where
  | x
  | y
  deriving DecidableEq, Repr, Inhabited

/-- `SHIFT_SOURCE`, which the spec leaves OPEN (R3, R99, D7). It has no body, so a claim holds for
both values. DESIGN CHOICE, safe: log entry 3. -/
opaque shiftSource : ShiftSource

/-- The byte the random source answers the `n`-th draw with (R130, R167): a free value under no law.
DESIGN CHOICE, safe: log entry 2. -/
opaque rnd : Nat → Byte

end Sys2Proof.Config
end

