-- ==== Sys2Proof/Syntax.lean ====
section
/-!
DEFINITION. The 34 instructions of 30_encoding R55, one constructor per row of
spec/opcode_table.json, in the order of R55. The fields are those of R51, each typed by its width, so
that no field value is illegal (R58).
-/

namespace Sys2Proof

/-- An instruction with the fields its format carries (R52). `SHR` and `SHL` keep `Y`, which
`SHIFT_SOURCE` may or may not read (R99). -/
inductive Instr where
  /-- `CLS`, 00E0 (R120). -/
  | cls
  /-- `RET`, 00EE (R72). -/
  | ret
  /-- `JP addr`, 1NNN (R73). -/
  | jp (nnn : Addr)
  /-- `CALL addr`, 2NNN (R74). -/
  | call (nnn : Addr)
  /-- `SE Vx, byte`, 3XNN (R75). -/
  | seImm (x : RegIdx) (nn : Byte)
  /-- `SNE Vx, byte`, 4XNN (R76). -/
  | sneImm (x : RegIdx) (nn : Byte)
  /-- `SE Vx, Vy`, 5XY0 (R77). -/
  | seReg (x y : RegIdx)
  /-- `SNE Vx, Vy`, 9XY0 (R78). -/
  | sneReg (x y : RegIdx)
  /-- `LD Vx, byte`, 6XNN (R91). -/
  | ldImm (x : RegIdx) (nn : Byte)
  /-- `ADD Vx, byte`, 7XNN (R92). -/
  | addImm (x : RegIdx) (nn : Byte)
  /-- `LD Vx, Vy`, 8XY0 (R93). -/
  | ldReg (x y : RegIdx)
  /-- `OR Vx, Vy`, 8XY1 (R94). -/
  | orReg (x y : RegIdx)
  /-- `AND Vx, Vy`, 8XY2 (R95). -/
  | andReg (x y : RegIdx)
  /-- `XOR Vx, Vy`, 8XY3 (R96). -/
  | xorReg (x y : RegIdx)
  /-- `ADD Vx, Vy`, 8XY4 (R97). -/
  | addReg (x y : RegIdx)
  /-- `SUB Vx, Vy`, 8XY5 (R98). -/
  | subReg (x y : RegIdx)
  /-- `SHR Vx {, Vy}`, 8XY6 (R99). -/
  | shr (x y : RegIdx)
  /-- `SUBN Vx, Vy`, 8XY7 (R100). -/
  | subn (x y : RegIdx)
  /-- `SHL Vx {, Vy}`, 8XYE (R101). -/
  | shl (x y : RegIdx)
  /-- `LD I, addr`, ANNN (R110). -/
  | ldI (nnn : Addr)
  /-- `JP V0, addr`, BNNN (R79). -/
  | jpV0 (nnn : Addr)
  /-- `RND Vx, byte`, CXNN (R130). -/
  | rnd (x : RegIdx) (nn : Byte)
  /-- `DRW Vx, Vy, nibble`, DXYN (R121). -/
  | drw (x y : RegIdx) (n : Nibble)
  /-- `SKP Vx`, EX9E (R131). -/
  | skp (x : RegIdx)
  /-- `SKNP Vx`, EXA1 (R132). -/
  | sknp (x : RegIdx)
  /-- `LD Vx, DT`, FX07 (R133). -/
  | ldVxDt (x : RegIdx)
  /-- `LD Vx, K`, FX0A (R134). -/
  | ldVxK (x : RegIdx)
  /-- `LD DT, Vx`, FX15 (R135). -/
  | ldDtVx (x : RegIdx)
  /-- `LD ST, Vx`, FX18 (R136). -/
  | ldStVx (x : RegIdx)
  /-- `ADD I, Vx`, FX1E (R111). -/
  | addIVx (x : RegIdx)
  /-- `LD F, Vx`, FX29 (R112). -/
  | ldFVx (x : RegIdx)
  /-- `LD B, Vx`, FX33 (R113). -/
  | ldBVx (x : RegIdx)
  /-- `LD [I], Vx`, FX55 (R114). -/
  | ldMemVx (x : RegIdx)
  /-- `LD Vx, [I]`, FX65 (R115). -/
  | ldVxMem (x : RegIdx)
  deriving DecidableEq, Repr

end Sys2Proof
end

