-- ==== Sys2Proof/WellFormed.lean ====
section
/-!
DEFINITION. What is well formed: an instruction (every term is, R58), an instruction word (one that
matches a row of the opcode map, R54, R55), a program image (R181) and the font parameters (R3, R32).
The opcode map is written here as data, apart from the decoder, so that the two can be compared.
-/

namespace Sys2Proof

/-- One row of the opcode map of R55. -/
structure OpcodeRow where
  mnemonic : String
  mask : Word
  pattern : Word
  deriving DecidableEq, Repr

/-- A word matches a row when `w & mask = match` (R54). -/
def OpcodeRow.accepts (r : OpcodeRow) (w : Word) : Bool := w &&& r.mask == r.pattern

/-- The rows with a whole high nibble to themselves, and the two exact words (R55). -/
def opcodeMapPlain : List OpcodeRow :=
  [⟨"CLS", 0xFFFF, 0x00E0⟩, ⟨"RET", 0xFFFF, 0x00EE⟩, ⟨"JP_addr", 0xF000, 0x1000⟩,
   ⟨"CALL_addr", 0xF000, 0x2000⟩, ⟨"SE_Vx__byte", 0xF000, 0x3000⟩,
   ⟨"SNE_Vx__byte", 0xF000, 0x4000⟩, ⟨"SE_Vx__Vy", 0xF00F, 0x5000⟩,
   ⟨"SNE_Vx__Vy", 0xF00F, 0x9000⟩, ⟨"LD_Vx__byte", 0xF000, 0x6000⟩,
   ⟨"ADD_Vx__byte", 0xF000, 0x7000⟩]

/-- The rows of the register-register group (R55). -/
def opcodeMapAlu : List OpcodeRow :=
  [⟨"LD_Vx__Vy", 0xF00F, 0x8000⟩, ⟨"OR_Vx__Vy", 0xF00F, 0x8001⟩,
   ⟨"AND_Vx__Vy", 0xF00F, 0x8002⟩, ⟨"XOR_Vx__Vy", 0xF00F, 0x8003⟩,
   ⟨"ADD_Vx__Vy", 0xF00F, 0x8004⟩, ⟨"SUB_Vx__Vy", 0xF00F, 0x8005⟩,
   ⟨"SHR_Vx____Vy", 0xF00F, 0x8006⟩, ⟨"SUBN_Vx__Vy", 0xF00F, 0x8007⟩,
   ⟨"SHL_Vx____Vy", 0xF00F, 0x800E⟩]

/-- The rows of families A to F (R55). -/
def opcodeMapRest : List OpcodeRow :=
  [⟨"LD_I__addr", 0xF000, 0xA000⟩, ⟨"JP_V0__addr", 0xF000, 0xB000⟩,
   ⟨"RND_Vx__byte", 0xF000, 0xC000⟩, ⟨"DRW_Vx__Vy__nibble", 0xF000, 0xD000⟩,
   ⟨"SKP_Vx", 0xF0FF, 0xE09E⟩, ⟨"SKNP_Vx", 0xF0FF, 0xE0A1⟩, ⟨"LD_Vx__DT", 0xF0FF, 0xF007⟩,
   ⟨"LD_Vx__K", 0xF0FF, 0xF00A⟩, ⟨"LD_DT__Vx", 0xF0FF, 0xF015⟩,
   ⟨"LD_ST__Vx", 0xF0FF, 0xF018⟩, ⟨"ADD_I__Vx", 0xF0FF, 0xF01E⟩,
   ⟨"LD_F__Vx", 0xF0FF, 0xF029⟩, ⟨"LD_B__Vx", 0xF0FF, 0xF033⟩,
   ⟨"LD__I___Vx", 0xF0FF, 0xF055⟩, ⟨"LD_Vx___I", 0xF0FF, 0xF065⟩]

/-- The opcode map of R55, all 34 rows in its order. -/
def opcodeMap : List OpcodeRow := opcodeMapPlain ++ opcodeMapAlu ++ opcodeMapRest

/-- The row of R55 an instruction belongs to, by its index in `opcodeMap`. -/
def Instr.rowIndex : Instr → Nat
  | .cls => 0
  | .ret => 1
  | .jp _ => 2
  | .call _ => 3
  | .seImm _ _ => 4
  | .sneImm _ _ => 5
  | .seReg _ _ => 6
  | .sneReg _ _ => 7
  | .ldImm _ _ => 8
  | .addImm _ _ => 9
  | .ldReg _ _ => 10
  | .orReg _ _ => 11
  | .andReg _ _ => 12
  | .xorReg _ _ => 13
  | .addReg _ _ => 14
  | .subReg _ _ => 15
  | .shr _ _ => 16
  | .subn _ _ => 17
  | .shl _ _ => 18
  | .ldI _ => 19
  | .jpV0 _ => 20
  | .rnd _ _ => 21
  | .drw _ _ _ => 22
  | .skp _ => 23
  | .sknp _ => 24
  | .ldVxDt _ => 25
  | .ldVxK _ => 26
  | .ldDtVx _ => 27
  | .ldStVx _ => 28
  | .addIVx _ => 29
  | .ldFVx _ => 30
  | .ldBVx _ => 31
  | .ldMemVx _ => 32
  | .ldVxMem _ => 33

/-- The row of R55 an instruction belongs to. -/
def Instr.row (i : Instr) : OpcodeRow := opcodeMap.getD i.rowIndex ⟨"", 0, 1⟩

/-- Well-formedness of an instruction: its row exists. The field widths of R51 are in the types of
`Instr`, so every term is well formed, as R58 says ("Field values are never illegal"). -/
def Instr.wf (i : Instr) : Bool := i.rowIndex < opcodeMap.length

/-- A word is an instruction word when it matches a row of the opcode map (R54, R56). -/
def wordWf (w : Word) : Bool := opcodeMap.any (·.accepts w)

/-- A program image that a load accepts: at most 3584 bytes (R181). -/
def imageWf (image : List Byte) : Bool := image.length ≤ Config.maxImage

/-- The constraint on the font parameters: 80 bytes, all below 0x200 (R3, R32). -/
def fontWf (base : Nat) (data : List Byte) : Bool := data.length == 80 && base + 80 ≤ Config.progBase

end Sys2Proof
end

