-- ==== Sys2Proof/Decode.lean ====
section
/-!
DEFINITION. The fields of an instruction word (30_encoding R51), the decoder (R54), total on every word
and on every list of bytes, and the encoder (R52, R55).
-/

namespace Sys2Proof

/-- Why bytes are no instruction. -/
inductive DecodeError where
  /-- The word matches no row of the opcode map: the `unknown` of R54, with the raw word. -/
  | unknownOpcode (w : Word)
  /-- Fewer than two bytes were given (R50). -/
  | truncated
  deriving DecidableEq, Repr

/-- `op`, the high nibble (R51). -/
def fieldOp (w : Word) : Nibble := w.extractLsb' 12 4

/-- `X`, the first register number (R51). -/
def fieldX (w : Word) : RegIdx := (w.extractLsb' 8 4).toFin

/-- `Y`, the second register number (R51). -/
def fieldY (w : Word) : RegIdx := (w.extractLsb' 4 4).toFin

/-- `N`, the low nibble (R51). -/
def fieldN (w : Word) : Nibble := w.extractLsb' 0 4

/-- `NN`, the low byte (R51). -/
def fieldNN (w : Word) : Byte := w.extractLsb' 0 8

/-- `NNN`, the 12-bit address literal (R51). -/
def fieldNNN (w : Word) : Addr := w.extractLsb' 0 12

/-- Family 8, keyed by the low nibble (R54). -/
def decodeAlu (w : Word) : Except DecodeError Instr :=
  match fieldN w with
  | 0x0#4 => .ok (.ldReg (fieldX w) (fieldY w))
  | 0x1#4 => .ok (.orReg (fieldX w) (fieldY w))
  | 0x2#4 => .ok (.andReg (fieldX w) (fieldY w))
  | 0x3#4 => .ok (.xorReg (fieldX w) (fieldY w))
  | 0x4#4 => .ok (.addReg (fieldX w) (fieldY w))
  | 0x5#4 => .ok (.subReg (fieldX w) (fieldY w))
  | 0x6#4 => .ok (.shr (fieldX w) (fieldY w))
  | 0x7#4 => .ok (.subn (fieldX w) (fieldY w))
  | 0xE#4 => .ok (.shl (fieldX w) (fieldY w))
  | _ => .error (.unknownOpcode w)

/-- Family E, keyed by the low byte (R54). -/
def decodeKey (w : Word) : Except DecodeError Instr :=
  match fieldNN w with
  | 0x9E#8 => .ok (.skp (fieldX w))
  | 0xA1#8 => .ok (.sknp (fieldX w))
  | _ => .error (.unknownOpcode w)

/-- Family F, keyed by the low byte (R54). -/
def decodeMisc (w : Word) : Except DecodeError Instr :=
  match fieldNN w with
  | 0x07#8 => .ok (.ldVxDt (fieldX w))
  | 0x0A#8 => .ok (.ldVxK (fieldX w))
  | 0x15#8 => .ok (.ldDtVx (fieldX w))
  | 0x18#8 => .ok (.ldStVx (fieldX w))
  | 0x1E#8 => .ok (.addIVx (fieldX w))
  | 0x29#8 => .ok (.ldFVx (fieldX w))
  | 0x33#8 => .ok (.ldBVx (fieldX w))
  | 0x55#8 => .ok (.ldMemVx (fieldX w))
  | 0x65#8 => .ok (.ldVxMem (fieldX w))
  | _ => .error (.unknownOpcode w)

/-- The decoder of R54: the high nibble first, then the low nibble or the low byte in the families the
source calls ambiguous. Every fixed bit is checked (R56, the spec's decisions D13, D14). The sixteen values of
the high nibble are all listed, so the last arm is never taken. -/
def decodeWord (w : Word) : Except DecodeError Instr :=
  match fieldOp w with
  | 0x0#4 => if w = 0x00E0 then .ok .cls else if w = 0x00EE then .ok .ret else .error (.unknownOpcode w)
  | 0x1#4 => .ok (.jp (fieldNNN w))
  | 0x2#4 => .ok (.call (fieldNNN w))
  | 0x3#4 => .ok (.seImm (fieldX w) (fieldNN w))
  | 0x4#4 => .ok (.sneImm (fieldX w) (fieldNN w))
  | 0x5#4 => if fieldN w = 0 then .ok (.seReg (fieldX w) (fieldY w)) else .error (.unknownOpcode w)
  | 0x6#4 => .ok (.ldImm (fieldX w) (fieldNN w))
  | 0x7#4 => .ok (.addImm (fieldX w) (fieldNN w))
  | 0x8#4 => decodeAlu w
  | 0x9#4 => if fieldN w = 0 then .ok (.sneReg (fieldX w) (fieldY w)) else .error (.unknownOpcode w)
  | 0xA#4 => .ok (.ldI (fieldNNN w))
  | 0xB#4 => .ok (.jpV0 (fieldNNN w))
  | 0xC#4 => .ok (.rnd (fieldX w) (fieldNN w))
  | 0xD#4 => .ok (.drw (fieldX w) (fieldY w) (fieldN w))
  | 0xE#4 => decodeKey w
  | 0xF#4 => decodeMisc w
  | _ => .error (.unknownOpcode w)

/-- Two bytes as an instruction word, the first byte high (R34, R50). -/
def wordOfBytes (hi lo : Byte) : Word := hi ++ lo

/-- Decode the first instruction of a list of bytes, with the rest of the list (R50, R59). -/
def decodeBytes : List Byte → Except DecodeError (Instr × List Byte)
  | hi :: lo :: rest => (decodeWord (wordOfBytes hi lo)).map (·, rest)
  | _ => .error .truncated

/-- The two bytes of a word as memory holds them, high byte first (R34). -/
def bytesOfWord (w : Word) : List Byte := [w.extractLsb' 8 8, w.extractLsb' 0 8]

/-- Format A: an opcode nibble and a 12-bit address (R52). -/
def formatA (op : Nibble) (nnn : Addr) : Word := op ++ nnn

/-- Format I: an opcode nibble, a register and a byte; format S with a fixed byte (R52). -/
def formatI (op : Nibble) (x : RegIdx) (nn : Byte) : Word := (op ++ x.bits) ++ nn

/-- Formats R and D: an opcode nibble, two registers and a nibble (R52). -/
def formatR (op : Nibble) (x y : RegIdx) (n : Nibble) : Word := (op ++ x.bits) ++ (y.bits ++ n)

/-- The word of an instruction (R52, R55). -/
def encode : Instr → Word
  | .cls => 0x00E0
  | .ret => 0x00EE
  | .jp nnn => formatA 0x1 nnn
  | .call nnn => formatA 0x2 nnn
  | .seImm x nn => formatI 0x3 x nn
  | .sneImm x nn => formatI 0x4 x nn
  | .seReg x y => formatR 0x5 x y 0x0
  | .sneReg x y => formatR 0x9 x y 0x0
  | .ldImm x nn => formatI 0x6 x nn
  | .addImm x nn => formatI 0x7 x nn
  | .ldReg x y => formatR 0x8 x y 0x0
  | .orReg x y => formatR 0x8 x y 0x1
  | .andReg x y => formatR 0x8 x y 0x2
  | .xorReg x y => formatR 0x8 x y 0x3
  | .addReg x y => formatR 0x8 x y 0x4
  | .subReg x y => formatR 0x8 x y 0x5
  | .shr x y => formatR 0x8 x y 0x6
  | .subn x y => formatR 0x8 x y 0x7
  | .shl x y => formatR 0x8 x y 0xE
  | .ldI nnn => formatA 0xA nnn
  | .jpV0 nnn => formatA 0xB nnn
  | .rnd x nn => formatI 0xC x nn
  | .drw x y n => formatR 0xD x y n
  | .skp x => formatI 0xE x 0x9E
  | .sknp x => formatI 0xE x 0xA1
  | .ldVxDt x => formatI 0xF x 0x07
  | .ldVxK x => formatI 0xF x 0x0A
  | .ldDtVx x => formatI 0xF x 0x15
  | .ldStVx x => formatI 0xF x 0x18
  | .addIVx x => formatI 0xF x 0x1E
  | .ldFVx x => formatI 0xF x 0x29
  | .ldBVx x => formatI 0xF x 0x33
  | .ldMemVx x => formatI 0xF x 0x55
  | .ldVxMem x => formatI 0xF x 0x65

/-- The word whose bits are the low `nbits` bits of `w` (numbered as spec/opcode_table.json numbers
them), laid out in memory order and decoded. Every instruction is one 16-bit word, so bits from 16 on
belong to no instruction. Log entry 17. -/
def decodeTableWord (nbits w : Nat) : Option Instr :=
  match decodeBytes (bytesOfWord (BitVec.ofNat 16 (w % 2 ^ nbits))) with
  | .ok (i, _) => some i
  | .error _ => none

end Sys2Proof
end

