-- ==== Sys2Proof/Machine/State.lean ====
section
/-!
DEFINITION. The state of the core (10_state), as plain data, and its value after reset (R24). Beside what
the spec names, State has two fields of the model's own: `inputs`, the events still to come (log entry 1),
and `draws`, the number of random bytes drawn (log entry 2).
-/

namespace Sys2Proof.Machine

/-- The input events of the port list (R174): the two triggers, the key edges, reset and load. Each is
one atomic step of its agent (R4). -/
inductive Event where
  /-- The instruction-rate trigger: one CPU step (R70). -/
  | step
  /-- The 60 Hz trigger: one TIMER step (R161). -/
  | tick
  /-- `key_down(k)` (R164). -/
  | keyDown (k : KeyIdx)
  /-- `key_up(k)` (R164). -/
  | keyUp (k : KeyIdx)
  /-- `reset` (R180). -/
  | reset
  /-- `load(bytes)` (R181). -/
  | load (image : List Byte)
  deriving DecidableEq, Repr

/-- The values of `ERR.kind` (R21, R150). -/
inductive ErrKind where
  | none
  | unknownOpcode
  | memoryBoundsError
  | stackError
  | loadError
  deriving DecidableEq, Repr

/-- The 3-bit code of `ERR.kind` (R21, R150). Codes 5 to 7 never occur. -/
def ErrKind.code : ErrKind → BitVec 3
  | .none => 0
  | .unknownOpcode => 1
  | .memoryBoundsError => 2
  | .stackError => 3
  | .loadError => 4

/-- The error record ERR (R21). -/
structure ErrRecord where
  kind : ErrKind
  pc : Word
  opcode : Word
  addr : Word
  deriving DecidableEq, Repr

/-- ERR after reset: kind `none`, other fields 0 (R24). -/
def ErrRecord.clear : ErrRecord := ⟨.none, 0, 0, 0⟩

/-- Memory: the bytes that differ from the reset contents, by address, strictly rising. What an unlisted
address reads as is `Memory.unlisted` (Machine/Ops). Log entry 8. -/
abbrev Memory := List Host.Cell

/-- The display buffer, 32 rows of 64 pixels, row-major: the pixel `FB[x, y]` is `fb[y][x]` (R16). -/
abbrev Frame := Vector (Vector Bool 64) 32

/-- The state of the core. -/
structure State where
  /-- V0 to VF (R10); VF is `v[15]` (R11). -/
  v : Vector Byte 16
  /-- The index register I (R12). -/
  i : Word
  /-- The program counter PC (R13). -/
  pc : Word
  /-- The call stack: the entries in use, newest first; SP is its length (R14, log entry 9). -/
  stack : List Word
  /-- MEM (R15). -/
  mem : Memory
  /-- FB (R16). -/
  fb : Frame
  /-- K (R17). -/
  keys : Vector Bool 16
  /-- WAIT: `some x` while the CPU is suspended in a key-wait for `V[x]` (R18). -/
  wait : Option RegIdx
  /-- The delay timer DT (R19). -/
  dt : Byte
  /-- The sound timer ST (R20). -/
  st : Byte
  /-- The error record ERR (R21). -/
  err : ErrRecord
  /-- The events that arrive next, first first. The model's own. DESIGN CHOICE: log entry 1. -/
  inputs : List Event
  /-- How many random bytes have been drawn. The model's own. DESIGN CHOICE: log entry 2. -/
  draws : Nat
  deriving DecidableEq, Repr

/-- The state right after reset (R24, R180): memory zero except the font (nothing listed), registers
zero, PC at 0x200, stack empty, timers zero, display and keypad clear, not waiting, no error. The values
of the model's own fields `inputs` and `draws` are DESIGN CHOICE: log entry 12. -/
def State.reset : State where
  v := Vector.replicate 16 0
  i := 0
  pc := 0x200
  stack := []
  mem := []
  fb := Vector.replicate 32 (Vector.replicate 64 false)
  keys := Vector.replicate 16 false
  wait := none
  dt := 0
  st := 0
  err := ErrRecord.clear
  inputs := []
  draws := 0

/-- Why the machine stops. -/
inductive Fault where
  /-- No agent can act: the core is halted by the error of this kind (R156, R157) and no event is left
  to come. Raised by `step` alone, never by an instruction. Safe: the spec enables no step here. Log
  entry 4. -/
  | halted (kind : ErrKind)
  deriving DecidableEq, Repr

/-- Why an instruction has no meaning. -/
inductive Refusal where
  /-- The instruction has no meaning yet. Raised by `exec`'s refused arms alone; no arm is refused now.
  Safe: the model stops where the hardware goes on. -/
  | notModelled (mnemonic : String)
  deriving DecidableEq, Repr

/-- What a step or an instruction answers. -/
abbrev Result := Host.Outcome State Fault Refusal

end Sys2Proof.Machine
end

