-- ==== Sys2Proof/Machine/Ops.lean ====
section
/-!
DEFINITION. The named operations over memory, registers, the display buffer and the program counter, the
bounds check, and taking an error (the one exception entry this hardware has) with the way out of it.
-/

namespace Sys2Proof.Machine

/-! ### Memory (20_memory) -/

/-- What an address that `Memory` does not list reads as: the reset contents, the font or zero (R24). -/
def Memory.unlisted (a : Nat) : Byte := Config.resetByte a

/-- The byte at an address, `MEM[a]` (R33). Bounds are checked by `outOfRange` before it is used. -/
def Memory.read : Memory → Nat → Byte
  | [], a => Memory.unlisted a
  | c :: m, a => if c.1 = a then c.2 else Memory.read m a

/-- Put a cell in its place, replacing one at the same address. -/
def Memory.put (a : Nat) (b : Byte) : Memory → Memory
  | [] => [(a, b)]
  | c :: m =>
    if a < c.1 then (a, b) :: c :: m
    else if a = c.1 then (a, b) :: m
    else c :: Memory.put a b m

/-- Remove the cell at an address. -/
def Memory.drop (a : Nat) (m : Memory) : Memory := m.filter (fun c => c.1 ≠ a)

/-- Write one byte, `MEM[a] <- b` (R33), keeping the canonical form. -/
def Memory.write (m : Memory) (a : Nat) (b : Byte) : Memory :=
  if b = Memory.unlisted a then Memory.drop a m else Memory.put a b m

/-- Read `n` bytes at ascending addresses (R35). -/
def Memory.readBytes (m : Memory) (a n : Nat) : List Byte :=
  (List.range n).map fun k => Memory.read m (a + k)

/-- Write bytes at ascending addresses (R35). -/
def Memory.writeBytes (m : Memory) (a : Nat) : List Byte → Memory
  | [] => m
  | b :: bs => Memory.writeBytes (Memory.write m a b) (a + 1) bs

/-- The cells of an image placed at an address, those equal to the reset contents left out. -/
def Memory.imageCells (a : Nat) : List Byte → Memory
  | [] => []
  | b :: bs =>
    if b = Memory.unlisted a then Memory.imageCells (a + 1) bs
    else (a, b) :: Memory.imageCells (a + 1) bs

/-- Replace memory from 0x200 onward by an image and zeros (R181); below 0x200 nothing changes. Above the
image nothing is listed, and an unlisted address from 0x200 on reads as zero. -/
def Memory.load (m : Memory) (image : List Byte) : Memory :=
  m.filter (fun c => c.1 < Config.progBase) ++ Memory.imageCells Config.progBase image

/-- The canonical form: addresses strictly rising, all inside the address space, and no cell equal to
what its address reads as unlisted. -/
abbrev Memory.wf (m : Memory) : Prop :=
  m.Pairwise (fun c d => c.1 < d.1) ∧ ∀ c ∈ m, c.1 < Config.memSize ∧ c.2 ≠ Memory.unlisted c.1

/-- The bounds check over `n` consecutive bytes at `a` (R33, R38): the lowest out-of-range address the
access would touch, if any. No byte touched, no check (R121). -/
def outOfRange (a n : Nat) : Option Nat :=
  if n = 0 ∨ a + n - 1 < Config.memSize then none else some (max a Config.memSize)

/-! ### Registers (10_state) -/

/-- `V[x]` (R10). -/
def State.getV (s : State) (x : RegIdx) : Byte := s.v[x.val]

/-- `V[x] <- b` (R10). No register is hard-wired. -/
def State.setV (s : State) (x : RegIdx) (b : Byte) : State := { s with v := s.v.set x.val b }

/-- SP, the number of stack entries in use (R14). -/
def State.sp (s : State) : Nat := s.stack.length

/-- `STACK[j]`, for `j` below SP (R14). -/
def State.stackEntry (s : State) (j : Nat) : Option Word := s.stack.reverse[j]?

/-- `K[k]` (R17). -/
def State.key (s : State) (k : KeyIdx) : Bool := s.keys[k.val]

/-- `K[k] <- b` (R17). -/
def State.setKey (s : State) (k : KeyIdx) (b : Bool) : State := { s with keys := s.keys.set k.val b }

/-! ### The display buffer (10_state R16) -/

/-- A clear display (R120). -/
def Frame.clear : Frame := Vector.replicate 32 (Vector.replicate 64 false)

/-- `FB[x, y]` (R16). -/
def Frame.pixel (f : Frame) (x : Fin 64) (y : Fin 32) : Bool := f[y.val][x.val]

/-- `FB[x, y] <- not FB[x, y]` (R121). -/
def Frame.toggle (f : Frame) (x : Fin 64) (y : Fin 32) : Frame :=
  f.set y.val (f[y.val].set x.val (!f[y.val][x.val]))

/-! ### The program counter (40_control R71) -/

/-- The default advance: `PC + 2` (R71). -/
def State.advance (s : State) : State := { s with pc := s.pc + 2 }

/-- A skip: `PC + 4` if the condition holds, else `PC + 2` (R71). -/
def State.skipIf (s : State) (c : Bool) : State := { s with pc := if c then s.pc + 4 else s.pc + 2 }

/-- A jump (R71). -/
def State.jump (s : State) (a : Word) : State := { s with pc := a }

/-! ### Errors (60_exceptions) -/

/-- The core is halted when ERR holds an error (R156). -/
def State.halted (s : State) : Bool := s.err.kind != .none

/-- Taking an error (R151 to R154, R156): ERR records the kind, PC, the word and the address; nothing else
changes, PC still addresses the faulting instruction, and the core is halted. This is the one exception
entry of the hardware. Log entry 5. -/
def State.raise (s : State) (kind : ErrKind) (opcode : Word) (addr : Word) : State :=
  { s with err := ⟨kind, s.pc, opcode, addr⟩ }

/-- The only way out of the halted state (R157): the host's reset (R180), which replaces the whole state.
The model's own fields, the events still to come and the number of draws, are kept. Log entry 11. -/
def hostReset (s : State) : State := { State.reset with inputs := s.inputs, draws := s.draws }

/-- An access of `n` bytes at I by the instruction `i`: the effect `t` if every byte is in range, else
`MemoryBoundsError` and no effect at all (R38, R152). The fetched word is the instruction's own encoding,
log entry 6. -/
def State.checked (s : State) (i : Instr) (n : Nat) (t : State) : State :=
  match outOfRange s.i.toNat n with
  | none => t
  | some a => s.raise .memoryBoundsError (encode i) (BitVec.ofNat 16 a)

end Sys2Proof.Machine
end

