-- ==== Sys2Proof/Machine/Agents.lean ====
section
/-!
DEFINITION. The agents beside the CPU and the output ports: the TIMER's tick (60_exceptions R161), the
host's key edges (R164, R165), reset (in Machine/Ops) and load (70_reset_and_hazards R181), and what the
host can see (R163, R168, R174).
-/

namespace Sys2Proof.Machine

/-- One decrement, floor-clamped at zero (R161). -/
def countDown (b : Byte) : Byte := if b = 0 then 0 else b - 1

/-- The tick (R161): both counters move in the same step; not enabled while halted (R156). It is enabled
whether or not the CPU is suspended. -/
def timerTick (s : State) : State :=
  if s.halted then s else { s with dt := countDown s.dt, st := countDown s.st }

/-- The completion of a key-wait by a key-press edge (R165). -/
def keyPressEdge (k : KeyIdx) (s : State) : State :=
  if s.halted then s
  else
    match s.wait with
    | some x => { (s.setV x (BitVec.ofNat 8 k.val)).advance with wait := none }
    | none => s

/-- `key_down(k)` (R164): an edge only if the key was up. Enabled in every state. -/
def keyDown (k : KeyIdx) (s : State) : State :=
  if s.key k then s else keyPressEdge k (s.setKey k true)

/-- `key_up(k)` (R164). Enabled in every state. -/
def keyUp (k : KeyIdx) (s : State) : State := s.setKey k false

/-- The length of a rejected image as ERR records it, saturated (R21, R154). -/
def lengthSaturated (n : Nat) : Word := BitVec.ofNat 16 (min n 0xFFFF)

/-- `load(bytes)` (R181): too long an image is a `LoadError` (R154); else the image replaces memory from
0x200 on, PC is reset and the timers, the display, the keypad and the key-wait latch are cleared. -/
def hostLoad (image : List Byte) (s : State) : State :=
  if image.length ≤ Config.maxImage then
    { s with
      mem := s.mem.load image
      pc := BitVec.ofNat 16 Config.progBase
      dt := 0
      st := 0
      fb := Frame.clear
      keys := Vector.replicate 16 false
      wait := none }
  else s.raise .loadError 0 (lengthSaturated image.length)

/-- The port `snd`: `ST != 0` (R163). -/
def State.sndOut (s : State) : Bool := s.st != 0

/-- The port `fb`: a snapshot of the display, taken between steps (R124, R168). -/
def State.fbOut (s : State) : Frame := s.fb

/-- The port `err` (R21, R174). -/
def State.errOut (s : State) : ErrRecord := s.err

end Sys2Proof.Machine
end

