-- ==== Sys2Proof/Machine/Flags.lean ====
section
/-!
DEFINITION. The flag computations (10_state R11, 41_alu R90) and the order of result and flag (R102).
-/

namespace Sys2Proof.Machine

/-- VF, the flag output (R11). -/
@[simp] abbrev vf : RegIdx := 15

/-- A flag as the 8-bit value 0x00 or 0x01 (R11). -/
def flagByte (b : Bool) : Byte := if b then 1 else 0

/-- Carry out: the 8-bit sum overflows (R97). -/
def carryOut (a b : Byte) : Bool := a.toNat + b.toNat > 255

/-- No borrow in `a - b`: `a >= b` (R98, R100). -/
def noBorrow (a b : Byte) : Bool := a.toNat ≥ b.toNat

/-- The bit a right shift by one loses, bit 0 (R99). -/
def outRight (a : Byte) : Bool := a.getLsbD 0

/-- The bit a left shift by one loses, bit 7 (R101). -/
def outLeft (a : Byte) : Bool := a.getLsbD 7

/-- A flag writer's two writes: the result to `V[X]`, then the flag to VF, so that with `X = 15` the flag
wins (R102, the spec's decision D8). -/
def State.setResultFlag (s : State) (x : RegIdx) (r : Byte) (flag : Bool) : State :=
  (s.setV x r).setV vf (flagByte flag)

end Sys2Proof.Machine
end

