-- ==== Sys2Proof/Machine/Operands.lean ====
section
/-!
DEFINITION. The operand forms: how an instruction's fields and registers become the values it works on
(30_encoding R53; all register operands are read from the state before the step, 41_alu R102).
-/

namespace Sys2Proof.Machine

/-- `zext_16(NNN)` (R53). -/
def addr16 (nnn : Addr) : Word := nnn.setWidth 16

/-- The target of `JP V0, addr`: `zext_16(NNN) + zext_16(V[0])`, not reduced to 12 bits (R79). -/
def State.offsetTarget (s : State) (nnn : Addr) : Word := addr16 nnn + (s.getV 0).setWidth 16

/-- The value a shift reads: `V[X]` or `V[Y]` by `SHIFT_SOURCE` (R99, R101). -/
def State.shiftOperand (s : State) (src : Config.ShiftSource) (x y : RegIdx) : Byte :=
  match src with
  | .x => s.getV x
  | .y => s.getV y

/-- The low nibble of `V[X]`, as a key index or a hexadecimal digit (R112, R131). -/
def State.lowNibble (s : State) (x : RegIdx) : Fin 16 := ((s.getV x).extractLsb' 0 4).toFin

/-- The address of the glyph of a digit: `FONT_BASE + 5 * d` (R32, R112). -/
def glyphAddr (d : Fin 16) : Word := BitVec.ofNat 16 (Config.fontBase + 5 * d.val)

/-- `I + zext_16(V[X])`, the sum of `ADD I, Vx` before it is reduced (R111). -/
def State.indexSum (s : State) (x : RegIdx) : Nat := s.i.toNat + (s.getV x).toNat

/-- The hundreds, tens and ones digits (R113). -/
def bcdDigits (b : Byte) : List Byte :=
  [BitVec.ofNat 8 (b.toNat / 100), BitVec.ofNat 8 (b.toNat / 10 % 10), BitVec.ofNat 8 (b.toNat % 10)]

/-- `V[0]` to `V[X]`, in order (R114). -/
def State.regsUpTo (s : State) (x : RegIdx) : List Byte :=
  (List.range (x.val + 1)).map fun k => s.getV (Fin.ofNat 16 k)

/-- The register file after `V[0]` to `V[X]` are loaded from consecutive bytes at `a` (R115). -/
def State.regsLoaded (s : State) (x : RegIdx) (a : Nat) : Vector Byte 16 :=
  Vector.ofFn fun r => if r ≤ x then s.mem.read (a + r.val) else s.getV r

/-- The sprite of `DRW`: `N` bytes at I (R121). -/
def State.spriteBytes (s : State) (n : Nibble) : List Byte := s.mem.readBytes s.i.toNat n.toNat

/-- The random byte of this draw (R130, R167): a free value. Log entry 2. -/
def State.rand8 (s : State) : Byte := Config.rnd s.draws

end Sys2Proof.Machine
end

