-- ==== Sys2Proof/Machine/Alu.lean ====
section
/-!
DEFINITION. Register loads and the 8-bit arithmetic unit (41_alu R91 to R101). Every instruction here
ends with `PC + 2` and raises no error.
-/

namespace Sys2Proof.Machine

/-- A result to `V[X]` with no flag, then the default advance (R91 to R96). -/
def aluPlain (x : RegIdx) (r : Byte) (s : State) : Result := .next (s.setV x r).advance

/-- A result to `V[X]` and a flag to VF, then the default advance (R97 to R102). -/
def aluFlag (x : RegIdx) (r : Byte) (flag : Bool) (s : State) : Result :=
  .next (s.setResultFlag x r flag).advance

/-- `LD Vx, byte` (R91). -/
def execLdImm (x : RegIdx) (nn : Byte) (s : State) : Result := aluPlain x nn s

/-- `ADD Vx, byte` (R92): wraps modulo 256, no flag. -/
def execAddImm (x : RegIdx) (nn : Byte) (s : State) : Result := aluPlain x (s.getV x + nn) s

/-- `LD Vx, Vy` (R93). -/
def execLdReg (x y : RegIdx) (s : State) : Result := aluPlain x (s.getV y) s

/-- `OR Vx, Vy` (R94). -/
def execOrReg (x y : RegIdx) (s : State) : Result := aluPlain x (s.getV x ||| s.getV y) s

/-- `AND Vx, Vy` (R95). -/
def execAndReg (x y : RegIdx) (s : State) : Result := aluPlain x (s.getV x &&& s.getV y) s

/-- `XOR Vx, Vy` (R96). -/
def execXorReg (x y : RegIdx) (s : State) : Result := aluPlain x (s.getV x ^^^ s.getV y) s

/-- `ADD Vx, Vy` (R97). -/
def execAddReg (x y : RegIdx) (s : State) : Result :=
  aluFlag x (s.getV x + s.getV y) (carryOut (s.getV x) (s.getV y)) s

/-- `SUB Vx, Vy`, VX minus VY (R98). -/
def execSubReg (x y : RegIdx) (s : State) : Result :=
  aluFlag x (s.getV x - s.getV y) (noBorrow (s.getV x) (s.getV y)) s

/-- `SHR Vx {, Vy}` (R99). -/
def execShr (x y : RegIdx) (s : State) : Result :=
  let a := s.shiftOperand Config.shiftSource x y
  aluFlag x (a >>> 1) (outRight a) s

/-- `SUBN Vx, Vy`, VY minus VX (R100). -/
def execSubn (x y : RegIdx) (s : State) : Result :=
  aluFlag x (s.getV y - s.getV x) (noBorrow (s.getV y) (s.getV x)) s

/-- `SHL Vx {, Vy}` (R101). -/
def execShl (x y : RegIdx) (s : State) : Result :=
  let a := s.shiftOperand Config.shiftSource x y
  aluFlag x (a <<< 1) (outLeft a) s

end Sys2Proof.Machine
end

