-- ==== Sys2Proof/Machine/Control.lean ====
section
/-!
DEFINITION. Control transfer (40_control R72 to R79): `RET`, `JP`, `CALL`, the four skips on registers and
immediates, `JP V0`. A `CALL` or `RET` that finds the stack full or empty takes `StackError` (R153).
-/

namespace Sys2Proof.Machine

/-- `RET` (R72): pop into PC, with no further advance. -/
def execRet (s : State) : Result :=
  match s.stack with
  | [] => .next (s.raise .stackError (encode .ret) 0)
  | a :: rest => .next ({ s with stack := rest }.jump a)

/-- `JP addr` (R73). -/
def execJp (nnn : Addr) (s : State) : Result := .next (s.jump (addr16 nnn))

/-- `CALL addr` (R74): push `PC + 2`, the address of the next instruction, then jump. -/
def execCall (nnn : Addr) (s : State) : Result :=
  if s.sp < Config.stackDepth then
    .next ({ s with stack := (s.pc + 2) :: s.stack }.jump (addr16 nnn))
  else .next (s.raise .stackError (encode (.call nnn)) 0)

/-- `SE Vx, byte` (R75). -/
def execSeImm (x : RegIdx) (nn : Byte) (s : State) : Result := .next (s.skipIf (s.getV x == nn))

/-- `SNE Vx, byte` (R76). -/
def execSneImm (x : RegIdx) (nn : Byte) (s : State) : Result := .next (s.skipIf (s.getV x != nn))

/-- `SE Vx, Vy` (R77). -/
def execSeReg (x y : RegIdx) (s : State) : Result := .next (s.skipIf (s.getV x == s.getV y))

/-- `SNE Vx, Vy` (R78). -/
def execSneReg (x y : RegIdx) (s : State) : Result := .next (s.skipIf (s.getV x != s.getV y))

/-- `JP V0, addr` (R79): `V[0]` always, the sum kept whole in 16 bits. -/
def execJpV0 (nnn : Addr) (s : State) : Result := .next (s.jump (s.offsetTarget nnn))

end Sys2Proof.Machine
end

