-- ==== Sys2Proof/Machine/Display.lean ====
section
/-!
DEFINITION. The display instructions (43_display R120 to R123): `CLS`, and `DRW` with the sprite blitter.
-/

namespace Sys2Proof.Machine

/-- The pixel that column `col` of row `row` of a sprite at `(x0, y0)` falls on (R121, R123): every
coordinate modulo 64 and 32 under `wrap`; under `clip`, which is not this hardware's value, none past the
edge. -/
def pixelAt (edge : Config.SpriteEdge) (x0 y0 : Byte) (row col : Nat) : Option (Fin 64 × Fin 32) :=
  match edge with
  | .wrap => some (Fin.ofNat 64 (x0.toNat + col), Fin.ofNat 32 (y0.toNat + row))
  | .clip =>
    if x0.toNat % 64 + col < 64 ∧ y0.toNat % 32 + row < 32 then
      some (Fin.ofNat 64 (x0.toNat + col), Fin.ofNat 32 (y0.toNat + row))
    else none

/-- Draw one bit of a sprite byte onto a display, with the collision so far (R121). Bit 7 is the leftmost
pixel (R122). -/
def plotBit (edge : Config.SpriteEdge) (x0 y0 : Byte) (row : Nat) (b : Byte) (acc : Frame × Bool)
    (col : Nat) : Frame × Bool :=
  if b.getLsbD (7 - col) then
    match pixelAt edge x0 y0 row col with
    | none => acc
    | some (x, y) => (acc.1.toggle x y, acc.2 || acc.1.pixel x y)
  else acc

/-- Draw the eight bits of one sprite byte (R121). -/
def plotRow (edge : Config.SpriteEdge) (x0 y0 : Byte) (row : Nat) (b : Byte) (acc : Frame × Bool) :
    Frame × Bool :=
  (List.range 8).foldl (plotBit edge x0 y0 row b) acc

/-- Draw the rows of a sprite, from row number `row` on (R121). -/
def plotRows (edge : Config.SpriteEdge) (x0 y0 : Byte) : Nat → List Byte → Frame × Bool → Frame × Bool
  | _, [], acc => acc
  | row, b :: bs, acc => plotRows edge x0 y0 (row + 1) bs (plotRow edge x0 y0 row b acc)

/-- `draw_sprite(x, y, bytes)` (R121): the display after, and whether a set pixel was unset. -/
def drawSprite (edge : Config.SpriteEdge) (fb : Frame) (x0 y0 : Byte) (bytes : List Byte) : Frame × Bool :=
  plotRows edge x0 y0 0 bytes (fb, false)

/-- `CLS` (R120). -/
def execCls (s : State) : Result := .next { s with fb := Frame.clear }.advance

/-- The effect of `DRW` when every sprite byte is in range (R121): both coordinates are read before VF is
written (R102). -/
def State.drawn (s : State) (x y : RegIdx) (n : Nibble) : State :=
  let r := drawSprite Config.spriteEdge s.fb (s.getV x) (s.getV y) (s.spriteBytes n)
  { s with fb := r.1 }.setV vf (flagByte r.2)

/-- `DRW Vx, Vy, nibble` (R121). -/
def execDrw (x y : RegIdx) (n : Nibble) (s : State) : Result :=
  .next (s.checked (.drw x y n) n.toNat (s.drawn x y n).advance)

end Sys2Proof.Machine
end

