-- ==== Sys2Proof/Machine/IndexMemory.lean ====
section
/-!
DEFINITION. The index register, loads and stores (42_index_memory R110 to R115). I is not changed by
`LD B`, `LD [I], Vx` and `LD Vx, [I]` (the spec's decision D10).
-/

namespace Sys2Proof.Machine

/-- The effect of `ADD I, Vx` under a value of `INDEX_ADD_POLICY` (R111): the sum modulo 4096, and under
`wrap12Flag`, which is not this hardware's value, VF as the overflow flag. -/
def State.addIndex (policy : Config.IndexAddPolicy) (x : RegIdx) (s : State) : State :=
  let t := { s with i := BitVec.ofNat 16 (s.indexSum x % 4096) }
  match policy with
  | .wrap12 => t
  | .wrap12Flag => t.setV vf (flagByte (s.indexSum x > 4095))

/-- `LD I, addr` (R110). -/
def execLdI (nnn : Addr) (s : State) : Result := .next { s with i := addr16 nnn }.advance

/-- `ADD I, Vx` (R111), with this hardware's policy. -/
def execAddIVx (x : RegIdx) (s : State) : Result := .next (s.addIndex Config.indexAddPolicy x).advance

/-- `LD F, Vx` (R112). -/
def execLdFVx (x : RegIdx) (s : State) : Result :=
  .next { s with i := glyphAddr (s.lowNibble x) }.advance

/-- `LD B, Vx` (R113). -/
def execLdBVx (x : RegIdx) (s : State) : Result :=
  .next (s.checked (.ldBVx x) 3
    { s with mem := s.mem.writeBytes s.i.toNat (bcdDigits (s.getV x)) }.advance)

/-- `LD [I], Vx` (R114). -/
def execLdMemVx (x : RegIdx) (s : State) : Result :=
  .next (s.checked (.ldMemVx x) (x.val + 1)
    { s with mem := s.mem.writeBytes s.i.toNat (s.regsUpTo x) }.advance)

/-- `LD Vx, [I]` (R115). -/
def execLdVxMem (x : RegIdx) (s : State) : Result :=
  .next (s.checked (.ldVxMem x) (x.val + 1) { s with v := s.regsLoaded x s.i.toNat }.advance)

end Sys2Proof.Machine
end

