-- ==== Sys2Proof/Machine/KeyTimer.lean ====
section
/-!
DEFINITION. Random, keypad and timer instructions (44_keypad_timers_random R130 to R136).
-/

namespace Sys2Proof.Machine

/-- `RND Vx, byte` (R130): a fresh draw, masked. -/
def execRnd (x : RegIdx) (nn : Byte) (s : State) : Result :=
  .next { s.setV x (s.rand8 &&& nn) with draws := s.draws + 1 }.advance

/-- `SKP Vx` (R131). -/
def execSkp (x : RegIdx) (s : State) : Result := .next (s.skipIf (s.key (s.lowNibble x)))

/-- `SKNP Vx` (R132). -/
def execSknp (x : RegIdx) (s : State) : Result := .next (s.skipIf (!s.key (s.lowNibble x)))

/-- `LD Vx, DT` (R133). -/
def execLdVxDt (x : RegIdx) (s : State) : Result := .next (s.setV x s.dt).advance

/-- `LD Vx, K` (R134): arm the latch. PC is not changed; the key-down edge completes the instruction
(`keyPressEdge`, R165). -/
def execLdVxK (x : RegIdx) (s : State) : Result := .next { s with wait := some x }

/-- `LD DT, Vx` (R135). -/
def execLdDtVx (x : RegIdx) (s : State) : Result := .next { s with dt := s.getV x }.advance

/-- `LD ST, Vx` (R136). -/
def execLdStVx (x : RegIdx) (s : State) : Result := .next { s with st := s.getV x }.advance

end Sys2Proof.Machine
end

