-- ==== Sys2Proof/Machine/Cycle.lean ====
section
/-!
DEFINITION. Fetching an instruction (20_memory R33, R34), the CPU step (40_control R70), and the delivery of
the next event (60_exceptions R174, log entries 1 and 4).
-/

namespace Sys2Proof.Machine

/-- The word at an address, big-endian: `MEM[a] ++ MEM[a + 1]` (R33, R34). -/
def Memory.word (m : Memory) (a : Nat) : Word := wordOfBytes (m.read a) (m.read (a + 1))

/-- `MemRead(PC, 2)` (R33, R50): the fetched word, or the lowest out-of-range address of the pair. -/
def State.fetch (s : State) : Except Nat Word :=
  match outOfRange s.pc.toNat 2 with
  | none => .ok (s.mem.word s.pc.toNat)
  | some a => .error a

/-- Fetch, decode and execute (R70): a fetch out of bounds and an unknown word take their errors before
anything else (R151, R152, R155). -/
def fetchDecodeExecute (s : State) : Result :=
  match s.fetch with
  | .error a => .next (s.raise .memoryBoundsError 0 (BitVec.ofNat 16 a))
  | .ok w =>
    match decodeWord w with
    | .ok i => exec i s
    | .error _ => .next (s.raise .unknownOpcode w 0)

/-- One instruction-rate trigger (R70): it does nothing in a halted core (R156) or a suspended one
(R166). -/
def cpuStep (s : State) : Result :=
  if s.halted then .next s
  else
    match s.wait with
    | some _ => .next s
    | none => fetchDecodeExecute s

/-- The step of the agent an event belongs to (R4, R174). -/
def deliver (e : Event) (s : State) : Result :=
  match e with
  | .step => cpuStep s
  | .tick => .next (timerTick s)
  | .keyDown k => .next (keyDown k s)
  | .keyUp k => .next (keyUp k s)
  | .reset => .next (hostReset s)
  | .load image => .next (hostLoad image s)

/-- One step of the machine: the next event of `inputs`; with none left, an instruction-rate trigger, and
with none left on a halted core the machine is stuck by name. Log entries 1 and 4. -/
def cycle (s : State) : Result :=
  match s.inputs with
  | e :: rest => deliver e { s with inputs := rest }
  | [] => if s.halted then .fault (.halted s.err.kind) else cpuStep s

end Sys2Proof.Machine
end

