-- ==== Sys2Proof/Machine/Step.lean ====
section
/-!
DEFINITION. The step, and a state made ready to fetch a given instruction.
-/

namespace Sys2Proof.Machine

/-- One step of the machine (R4, R70). -/
def step (s : State) : Host.Outcome State Fault Refusal := cycle s

/-- The state with an instruction's word stored where the next step fetches, high byte first (R34), and
nothing in the way of that fetch: no event still to come, no error, no key-wait, PC inside memory. From
`State.reset` only the two bytes change. Log entry 14. -/
def State.withFetchWord (s : State) (nbits w : Nat) : State :=
  let pc : Word := if s.pc.toNat + 1 < Config.memSize then s.pc else BitVec.ofNat 16 Config.progBase
  { s with
    mem := s.mem.writeBytes pc.toNat (bytesOfWord (BitVec.ofNat 16 (w % 2 ^ nbits)))
    pc := pc
    wait := none
    err := if s.halted then ErrRecord.clear else s.err
    inputs := [] }

end Sys2Proof.Machine
end

