-- ==== Sys2Proof/Safety.lean ====
section
/-!
DEFINITION. The terms claims use: a part of the state and what a step leaves unchanged, which parts each
instruction may write (10_state R25), the pixels a sprite covers (43_display R121), the invariant of the
core, a running core, and the end of a run (70_reset_and_hazards R189).
-/

namespace Sys2Proof.Machine

/-- One observable part of the state, at the finest grain: one register, one byte, one pixel, one key. -/
inductive Part where
  | reg (r : RegIdx)
  | index
  | pc
  | stack
  | byte (a : Nat)
  | pixel (x : Fin 64) (y : Fin 32)
  | key (k : KeyIdx)
  | wait
  | dt
  | st
  | err
  | inputs
  | draws
  deriving DecidableEq, Repr

/-- Two states agree on a part. Memory is compared through the read of one byte. -/
def Part.Agrees (s t : State) : Part → Prop
  | .reg r => t.getV r = s.getV r
  | .index => t.i = s.i
  | .pc => t.pc = s.pc
  | .stack => t.stack = s.stack
  | .byte a => t.mem.read a = s.mem.read a
  | .pixel x y => t.fb.pixel x y = s.fb.pixel x y
  | .key k => t.key k = s.key k
  | .wait => t.wait = s.wait
  | .dt => t.dt = s.dt
  | .st => t.st = s.st
  | .err => t.err = s.err
  | .inputs => t.inputs = s.inputs
  | .draws => t.draws = s.draws

/-- From `s` to `t` nothing changes but the parts named: the frame of a step. -/
def OnlyChanges (s t : State) (changed : Part → Prop) : Prop := ∀ p, ¬ changed p → p.Agrees s t

/-- The bytes of an access of `n` bytes at `a`. -/
def Part.InBytes (a n : Nat) (p : Part) : Prop := ∃ k, k < n ∧ p = .byte (a + k)

/-- The registers `V[0]` to `V[X]`. -/
def Part.InRegs (x : RegIdx) (p : Part) : Prop := ∃ r, r ≤ x ∧ p = .reg r

/-- Some pixel of the display. -/
def Part.IsPixel (p : Part) : Prop := ∃ x y, p = .pixel x y

end Sys2Proof.Machine

namespace Sys2Proof

open Sys2Proof.Machine

/-- The parts an instruction may write when it has its own effect, as the column "written by" of R25 lists
them, read per instruction; `draws` is the model's own. PC is written by every instruction but `LD Vx, K`
(R71). -/
def Instr.MayWrite (i : Instr) (s : State) (p : Part) : Prop :=
  match i with
  | .cls => p = .pc ∨ p.IsPixel
  | .ret => p = .pc ∨ p = .stack
  | .jp _ => p = .pc
  | .call _ => p = .pc ∨ p = .stack
  | .seImm _ _ => p = .pc
  | .sneImm _ _ => p = .pc
  | .seReg _ _ => p = .pc
  | .sneReg _ _ => p = .pc
  | .ldImm x _ => p = .pc ∨ p = .reg x
  | .addImm x _ => p = .pc ∨ p = .reg x
  | .ldReg x _ => p = .pc ∨ p = .reg x
  | .orReg x _ => p = .pc ∨ p = .reg x
  | .andReg x _ => p = .pc ∨ p = .reg x
  | .xorReg x _ => p = .pc ∨ p = .reg x
  | .addReg x _ => p = .pc ∨ p = .reg x ∨ p = .reg 15
  | .subReg x _ => p = .pc ∨ p = .reg x ∨ p = .reg 15
  | .shr x _ => p = .pc ∨ p = .reg x ∨ p = .reg 15
  | .subn x _ => p = .pc ∨ p = .reg x ∨ p = .reg 15
  | .shl x _ => p = .pc ∨ p = .reg x ∨ p = .reg 15
  | .ldI _ => p = .pc ∨ p = .index
  | .jpV0 _ => p = .pc
  | .rnd x _ => p = .pc ∨ p = .reg x ∨ p = .draws
  | .drw _ _ _ => p = .pc ∨ p = .reg 15 ∨ p.IsPixel
  | .skp _ => p = .pc
  | .sknp _ => p = .pc
  | .ldVxDt x => p = .pc ∨ p = .reg x
  | .ldVxK _ => p = .wait
  | .ldDtVx _ => p = .pc ∨ p = .dt
  | .ldStVx _ => p = .pc ∨ p = .st
  | .addIVx _ => p = .pc ∨ p = .index
  | .ldFVx _ => p = .pc ∨ p = .index
  | .ldBVx _ => p = .pc ∨ p.InBytes s.i.toNat 3
  | .ldMemVx x => p = .pc ∨ p.InBytes s.i.toNat (x.val + 1)
  | .ldVxMem x => p = .pc ∨ p.InRegs x

/-- The six instructions that write VF as a flag (R11). -/
def Instr.isFlagWriter : Instr → Bool
  | .addReg _ _ => true
  | .subReg _ _ => true
  | .subn _ _ => true
  | .shr _ _ => true
  | .shl _ _ => true
  | .drw _ _ _ => true
  | _ => false

/-- PC after an instruction that has its own effect, executed at a fetchable PC: the table of R71, in
natural numbers. -/
def Instr.pcAfter (i : Instr) (s : State) : Nat :=
  match i with
  | .jp nnn => nnn.toNat
  | .call nnn => nnn.toNat
  | .jpV0 nnn => nnn.toNat + (s.getV 0).toNat
  | .ret => (s.stackEntry (s.sp - 1)).elim s.pc.toNat BitVec.toNat
  | .seImm x nn => if s.getV x = nn then s.pc.toNat + 4 else s.pc.toNat + 2
  | .sneImm x nn => if s.getV x ≠ nn then s.pc.toNat + 4 else s.pc.toNat + 2
  | .seReg x y => if s.getV x = s.getV y then s.pc.toNat + 4 else s.pc.toNat + 2
  | .sneReg x y => if s.getV x ≠ s.getV y then s.pc.toNat + 4 else s.pc.toNat + 2
  | .skp x => if s.key (s.lowNibble x) = true then s.pc.toNat + 4 else s.pc.toNat + 2
  | .sknp x => if s.key (s.lowNibble x) = false then s.pc.toNat + 4 else s.pc.toNat + 2
  | .ldVxK _ => s.pc.toNat
  | _ => s.pc.toNat + 2

/-- When an instruction finds its own check failing (R155): the stack for `CALL` and `RET`, the addresses
for the four memory instructions, nothing for the rest. -/
def Instr.CheckFails (i : Instr) (s : State) : Prop :=
  match i with
  | .ret => s.sp = 0
  | .call _ => 16 ≤ s.sp
  | .drw _ _ n => 0 < n.toNat ∧ 4096 ≤ s.i.toNat + n.toNat - 1
  | .ldBVx _ => 4096 ≤ s.i.toNat + 2
  | .ldMemVx x => 4096 ≤ s.i.toNat + x.val
  | .ldVxMem x => 4096 ≤ s.i.toNat + x.val
  | _ => False

/-- A word stands for an instruction: the word decodes to it and it encodes to the word (R54, R55). -/
def IsWordOf (w : Word) (i : Instr) : Prop := decodeWord w = .ok i ∧ encode i = w

end Sys2Proof

namespace Sys2Proof.Machine

/-- A core whose CPU is enabled: not halted, not suspended (R70). -/
def State.Running (s : State) : Prop := s.err.kind = .none ∧ s.wait = none

/-- Bit `7 - col` of byte `row` of a sprite at `(x0, y0)` is on and falls on the pixel `(x, y)`, each
coordinate modulo 64 and 32 (R121, R122, R123 `wrap`). -/
def spriteBitOn (x0 y0 : Byte) (bytes : List Byte) (x : Fin 64) (y : Fin 32) (row col : Nat) : Bool :=
  (bytes.getD row 0).getLsbD (7 - col) &&
    (x.val == (x0.toNat + col) % 64 && y.val == (y0.toNat + row) % 32)

/-- A sprite covers the pixel `(x, y)`: some bit of it that is on falls there (R121). -/
def spriteCovers (x0 y0 : Byte) (bytes : List Byte) (x : Fin 64) (y : Fin 32) : Bool :=
  (List.range bytes.length).any fun row => (List.range 8).any fun col =>
    spriteBitOn x0 y0 bytes x y row col

/-- The invariant of the core: the memory is canonical, I is below 4096 (R12), the stack has at most 16
entries (R14), each a return address of at most 0x1000, PC is at most 0x10FE (R13), a suspended core stands
on a fetchable instruction (R18), ERR without an error is clear (R24), and a bounds error reports an address
outside memory (R152). -/
structure State.Inv (s : State) : Prop where
  mem : s.mem.wf
  index : s.i.toNat < 4096
  depth : s.stack.length ≤ 16
  returns : ∀ a ∈ s.stack, a.toNat ≤ 0x1000
  pc : s.pc.toNat ≤ 0x10FE
  waiting : s.wait.isSome = true → s.pc.toNat < 4095
  clear : s.err.kind = .none → s.err = ErrRecord.clear
  bounds : s.err.kind = .memoryBoundsError → 4096 ≤ s.err.addr.toNat

/-- A safe state: no error has been taken (R156). -/
def State.Safe (s : State) : Prop := s.err.kind = .none

/-- "The program has ended at address A" (R189, the spec's definition D29): PC = A, the word at A is
`0x1000 | A`, ERR is none and WAIT is none. -/
def State.EndedAt (s : State) (a : Addr) : Prop :=
  s.pc = addr16 a ∧ a.toNat + 1 < 4096 ∧ s.mem.word a.toNat = (0x1000 ||| addr16 a) ∧
    s.err.kind = .none ∧ s.wait = none

end Sys2Proof.Machine
end

