-- ==== Sys2Proof/Machine/Schedule.lean ====
section
/-!
DEFINITION. Unending runs (60_exceptions R162). `State.inputs` is a finite list, so a run without end is given
by a schedule, an event for every position, fed to the machine one at a time. The hardware fixes no order of the
agents' steps; what remains of the two rates is weak fairness (the spec's decision D30). Log entry 13.
-/

namespace Sys2Proof.Machine

/-- Which event comes at each position of an unending run. It is a parameter of a claim and no state. -/
abbrev Schedule := Nat → Event

/-- One event fed to the machine: its step with that event the next, and the only one, to come. -/
def feed (e : Event) (s : State) : Result := step { s with inputs := [e] }

/-- The state at position `n` of the unending run from `s` under a schedule. An event always has a next state
(`feed_answers`), so the second arm is never taken. -/
def runAt (sched : Schedule) (s : State) : Nat → State
  | 0 => s
  | n + 1 =>
    match feed (sched n) (runAt sched s n) with
    | .next t => t
    | _ => runAt sched s n

/-- An event keeps coming while an agent is enabled: from wherever the agent stays enabled for ever, the event
comes again (weak fairness). -/
def KeepsComing (sched : Schedule) (s : State) (e : Event) (enabled : State → Prop) : Prop :=
  ∀ n, (∀ m, n ≤ m → enabled (runAt sched s m)) → ∃ m, n ≤ m ∧ sched m = e

/-- The fairness of R162. The TIMER's step is enabled while the core is not halted (R156, R161), the CPU's while
it is neither halted nor suspended (R70, R166): in an unending run of a core that is not halted, ticks keep coming, and while the CPU
is not suspended CPU steps keep coming (the spec's decision D30). -/
structure Fair (sched : Schedule) (s : State) : Prop where
  ticks : KeepsComing sched s .tick State.Safe
  steps : KeepsComing sched s .step State.Running

end Sys2Proof.Machine
end

