-- ==== Sys2Proof/Certificates/Slice0/Obligations.lean ====
section
/-!
DEFINITION. The statements for the provers. Each docstring names the rules or sections of spec/ it comes
from; where it rests on a decision of the spec (Dn of 92_eei_decisions) or on a choice of the model, it
says so and names the decision or the log entry.
-/

open Sys2Proof Sys2Proof.Machine

/-! ### Encoding (30_encoding) -/

/-- Every instruction, with every operand at every value its encoding admits, decodes back from its word
(30_encoding sections 3, 5, 6; the bit patterns are the spec's from general knowledge, G1). -/
def Obligations.DecodeOfEncodeIsSame : Prop := ∀ i : Instr, decodeWord (encode i) = .ok i

/-- Every word that decodes is the encoding of what it decodes to, so no bit of a word is dropped
(30_encoding sections 2, 3, 5). ERR's opcode rests on it, log entry 6. -/
def Obligations.EncodeOfDecodeIsSame : Prop :=
  ∀ (w : Word) (i : Instr), decodeWord w = .ok i → encode i = w

/-- The decoder against the opcode map, which is written apart from it: a word matching a row decodes to an
instruction of that row (so no word matches two rows), and a word matching none is unknown, with the raw
word (30_encoding sections 5, 6). -/
def Obligations.DecodeFollowsOpcodeMap : Prop :=
  ∀ w : Word,
    (∀ r ∈ opcodeMap, r.accepts w = true → ∃ i, decodeWord w = .ok i ∧ i.row = r) ∧
    (wordWf w = false → decodeWord w = .error (.unknownOpcode w))

/-- The unknown words are exactly those of the table of 30_encoding section 7 (the strictness is the spec's
decisions D13 and D14). -/
def Obligations.UnknownWordsByFamily : Prop :=
  ∀ w : Word, decodeWord w = .error (.unknownOpcode w) ↔
    (w.toNat < 0x1000 ∧ w.toNat ≠ 0x00E0 ∧ w.toNat ≠ 0x00EE) ∨
    (w.toNat / 0x1000 = 5 ∧ w.toNat % 16 ≠ 0) ∨
    (w.toNat / 0x1000 = 8 ∧ w.toNat % 16 ∈ [8, 9, 0xA, 0xB, 0xC, 0xD, 0xF]) ∨
    (w.toNat / 0x1000 = 9 ∧ w.toNat % 16 ≠ 0) ∨
    (w.toNat / 0x1000 = 0xE ∧ w.toNat % 256 ∉ [0x9E, 0xA1]) ∨
    (w.toNat / 0x1000 = 0xF ∧
      w.toNat % 256 ∉ [0x07, 0x0A, 0x15, 0x18, 0x1E, 0x29, 0x33, 0x55, 0x65])

/-- Words of 95_test_vectors section 2.1 decode as listed there. A sanity statement. -/
def Obligations.SampleWordsDecode : Prop :=
  decodeWord 0x00E0 = .ok .cls ∧ decodeWord 0x00EE = .ok .ret ∧
  decodeWord 0x1201 = .ok (.jp 0x201) ∧ decodeWord 0x5120 = .ok (.seReg 1 2) ∧
  decodeWord 0x8AF0 = .ok (.ldReg 10 15) ∧ decodeWord 0x8AFE = .ok (.shl 10 15) ∧
  decodeWord 0x9AB0 = .ok (.sneReg 10 11) ∧ decodeWord 0xBFFF = .ok (.jpV0 0xFFF) ∧
  decodeWord 0xD000 = .ok (.drw 0 0 0) ∧ decodeWord 0xE09E = .ok (.skp 0) ∧
  decodeWord 0xE0A1 = .ok (.sknp 0) ∧ decodeWord 0xF00A = .ok (.ldVxK 0) ∧
  decodeWord 0xF065 = .ok (.ldVxMem 0) ∧
  decodeWord 0x5121 = .error (.unknownOpcode 0x5121) ∧
  decodeWord 0x8AF8 = .error (.unknownOpcode 0x8AF8) ∧
  decodeWord 0x0000 = .error (.unknownOpcode 0x0000)

/-! ### The step (40_control section 1) -/

/-- A step runs the decoded instruction (40_control section 1): on a running core whose fetched word, the
byte at PC high, decodes to `i`, the step is `exec i`. With no event to come it is that at once; with a
`step` event first, that event is used up (log entry 1). -/
def Obligations.StepRunsDecodedInstruction : Prop :=
  ∀ (s : State) (i : Instr), s.Running → s.pc.toNat < 4095 →
    decodeWord (s.mem.read s.pc.toNat ++ s.mem.read (s.pc.toNat + 1)) = .ok i →
    (s.inputs = [] → step s = exec i s) ∧
    (∀ rest, s.inputs = .step :: rest → step s = exec i { s with inputs := rest })

/-- A fetch out of bounds takes `MemoryBoundsError` with opcode 0 and the lowest out-of-range address of the
pair (60_exceptions section 1; the record is the spec's decision D17, the address D22; a next state, log
entry 5). -/
def Obligations.FetchOutOfBoundsTakesError : Prop :=
  ∀ s : State, s.Running → s.inputs = [] → 4095 ≤ s.pc.toNat →
    ∃ t, step s = .next t ∧
      t.err = ⟨.memoryBoundsError, s.pc, 0, BitVec.ofNat 16 (max s.pc.toNat 4096)⟩ ∧
      OnlyChanges s t fun p => p = .err

/-- A fetched word that is unknown takes `UnknownOpcode` with the raw word (60_exceptions section 1; the
record is the spec's decision D17; a next state, log entry 5). -/
def Obligations.UnknownWordTakesError : Prop :=
  ∀ s : State, s.Running → s.inputs = [] → s.pc.toNat < 4095 →
    wordWf (s.mem.read s.pc.toNat ++ s.mem.read (s.pc.toNat + 1)) = false →
    ∃ t, step s = .next t ∧
      t.err = ⟨.unknownOpcode, s.pc, s.mem.read s.pc.toNat ++ s.mem.read (s.pc.toNat + 1), 0⟩ ∧
      OnlyChanges s t fun p => p = .err

/-- A CPU step while suspended changes nothing, and executing the key-wait again at PC would change nothing
either (60_exceptions section 7, rule on the suspended CPU step; the latch is the spec's decision D16). -/
def Obligations.SuspendedStepChangesNothing : Prop :=
  ∀ (s : State) (x : RegIdx), s.err.kind = .none → s.wait = some x →
    (s.inputs = [] → step s = .next s) ∧
    (∀ rest, s.inputs = .step :: rest → step s = .next { s with inputs := rest }) ∧
    exec (.ldVxK x) s = .next s

/-- A halted core ignores the `step` and `tick` triggers; with no event left it is stuck by name
(60_exceptions section 3, the spec's decision D19; 95_test_vectors P4; log entry 4). -/
def Obligations.HaltedCoreDoesNothing : Prop :=
  ∀ s : State, s.err.kind ≠ .none →
    (∀ rest, s.inputs = .step :: rest → step s = .next { s with inputs := rest }) ∧
    (∀ rest, s.inputs = .tick :: rest → step s = .next { s with inputs := rest }) ∧
    (s.inputs = [] → step s = .fault (.halted s.err.kind))

/-- Every other event is one step of its agent on the state without that event (60_exceptions section 7,
port list, the spec's decision D21; the list of events is the model's, log entry 1). -/
def Obligations.EventsAreStepsOfTheirAgents : Prop :=
  ∀ (s : State) (rest : List Event),
    (s.inputs = .tick :: rest → step s = .next (timerTick { s with inputs := rest })) ∧
    (∀ k, s.inputs = .keyDown k :: rest → step s = .next (keyDown k { s with inputs := rest })) ∧
    (∀ k, s.inputs = .keyUp k :: rest → step s = .next (keyUp k { s with inputs := rest })) ∧
    (s.inputs = .reset :: rest → step s = .next (hostReset { s with inputs := rest })) ∧
    (∀ im, s.inputs = .load im :: rest → step s = .next (hostLoad im { s with inputs := rest }))

/-! ### Control transfer (40_control) -/

/-- `RET` (40_control section 2): the top entry, `STACK[SP - 1]`, goes to PC with no further advance and SP goes
down by one; an empty stack takes `StackError` and SP, PC and the stack are unchanged. That the error is a next
state is the model's reading, log entry 5. -/
def Obligations.ReturnPopsOrTakesStackError : Prop :=
  ∀ s : State, IsWordOf 0x00EE .ret ∧
    (∀ a rest, s.stack = a :: rest →
      ∃ t, exec .ret s = .next t ∧ s.stackEntry (s.sp - 1) = some t.pc ∧ t.pc = a ∧ t.stack = rest ∧
        t.sp + 1 = s.sp ∧ OnlyChanges s t fun p => p = .pc ∨ p = .stack) ∧
    (s.sp = 0 → ∃ t, exec .ret s = .next t ∧ t.err.kind = .stackError ∧ OnlyChanges s t fun p => p = .err)

/-- `JP addr` (R73): PC becomes the literal, any literal, and at 0xFFF the next fetch faults; a jump to its
own address leaves the whole state unchanged. -/
def Obligations.JumpSetsPc : Prop :=
  ∀ (nnn : Addr) (s : State), IsWordOf (0x1#4 ++ nnn) (.jp nnn) ∧
    (∃ t, exec (.jp nnn) s = .next t ∧ t.pc.toNat = nnn.toNat ∧
      (nnn.toNat = 0xFFF → t.fetch = .error 4096) ∧ OnlyChanges s t fun p => p = .pc) ∧
    (s.pc.toNat = nnn.toNat → exec (.jp nnn) s = .next s)

/-- `CALL addr` (40_control section 2): below depth 16, `PC + 2` is pushed and PC becomes the literal. That
the value pushed is `PC + 2` is the spec's decision D4. -/
def Obligations.CallPushesReturnAddress : Prop :=
  ∀ (nnn : Addr) (s : State), s.sp < 16 →
    ∃ t, exec (.call nnn) s = .next t ∧ t.stackEntry s.sp = some (s.pc + 2) ∧ t.sp = s.sp + 1 ∧
      (∀ j, j < s.sp → t.stackEntry j = s.stackEntry j) ∧ t.pc.toNat = nnn.toNat ∧
      OnlyChanges s t fun p => p = .pc ∨ p = .stack

/-- The records of overflow and underflow (60_exceptions section 1; the spec's decision D17; log entries 5
and 6). -/
def Obligations.StackErrorRecords : Prop :=
  ∀ s : State,
    (∀ nnn : Addr, 16 ≤ s.sp → ∃ t, exec (.call nnn) s = .next t ∧
      t.err = ⟨.stackError, s.pc, 0x2#4 ++ nnn, 0⟩ ∧ OnlyChanges s t fun p => p = .err) ∧
    (s.sp = 0 → ∃ t, exec .ret s = .next t ∧ t.err = ⟨.stackError, s.pc, 0x00EE, 0⟩ ∧
      OnlyChanges s t fun p => p = .err)

/-- The skips on an immediate (R75, R76): PC + 4 if the condition holds, else PC + 2; nothing else changes.
-/
def Obligations.SkipsOnImmediate : Prop :=
  ∀ (x : RegIdx) (nn : Byte) (s : State),
    (IsWordOf ((0x3#4 ++ x.bits) ++ nn) (.seImm x nn) ∧
      ∃ t, exec (.seImm x nn) s = .next t ∧
        t.pc = (if (s.getV x).toNat = nn.toNat then s.pc + 4 else s.pc + 2) ∧
        OnlyChanges s t fun p => p = .pc) ∧
    (IsWordOf ((0x4#4 ++ x.bits) ++ nn) (.sneImm x nn) ∧
      ∃ t, exec (.sneImm x nn) s = .next t ∧
        t.pc = (if (s.getV x).toNat = nn.toNat then s.pc + 2 else s.pc + 4) ∧
        OnlyChanges s t fun p => p = .pc)

/-- The skips on two registers, and that a word of their families with a nonzero low nibble is unknown
(40_control section 3; that strictness is the spec's decision D14). -/
def Obligations.SkipsOnRegisters : Prop :=
  ∀ (x y : RegIdx) (s : State),
    (∃ t, exec (.seReg x y) s = .next t ∧
      t.pc = (if (s.getV x).toNat = (s.getV y).toNat then s.pc + 4 else s.pc + 2) ∧
      OnlyChanges s t fun p => p = .pc) ∧
    (∃ t, exec (.sneReg x y) s = .next t ∧
      t.pc = (if (s.getV x).toNat = (s.getV y).toNat then s.pc + 2 else s.pc + 4) ∧
      OnlyChanges s t fun p => p = .pc) ∧
    (∀ n : Nibble, n ≠ 0 →
      decodeWord ((0x5#4 ++ x.bits) ++ (y.bits ++ n)) =
        .error (.unknownOpcode ((0x5#4 ++ x.bits) ++ (y.bits ++ n))) ∧
      decodeWord ((0x9#4 ++ x.bits) ++ (y.bits ++ n)) =
        .error (.unknownOpcode ((0x9#4 ++ x.bits) ++ (y.bits ++ n))))

/-- `JP V0, addr` (40_control section 4): the literal plus V0, kept whole; that it is not reduced to 12 bits
is the spec's decision D15. -/
def Obligations.JumpWithOffset : Prop :=
  ∀ (nnn : Addr) (s : State),
    ∃ t, exec (.jpV0 nnn) s = .next t ∧ t.pc.toNat = nnn.toNat + (s.getV 0).toNat ∧
      OnlyChanges s t fun p => p = .pc

/-- A call and then a return come back to the instruction after the call with the stack as it was, from
every depth below 16 (95_test_vectors S7; 40_control section 2; the spec's decision D4). -/
def Obligations.CallThenReturnComesBack : Prop :=
  ∀ (nnn : Addr) (s t : State), s.sp < 16 → exec (.call nnn) s = .next t →
    ∃ u, exec .ret t = .next u ∧ u.pc = s.pc + 2 ∧ OnlyChanges s u fun p => p = .pc

/-! ### Register loads and arithmetic (41_alu) -/

/-- `LD Vx, byte` (R91): the register is the literal; no other register, and VF only if it is the register
named. -/
def Obligations.LoadImmediate : Prop :=
  ∀ (x : RegIdx) (nn : Byte) (s : State), IsWordOf ((0x6#4 ++ x.bits) ++ nn) (.ldImm x nn) ∧
    ∃ t, exec (.ldImm x nn) s = .next t ∧ t.getV x = nn ∧ t.pc = s.pc + 2 ∧
      OnlyChanges s t fun p => p = .pc ∨ p = .reg x

/-- `ADD Vx, byte` (R92): the sum modulo 256, no flag effect. -/
def Obligations.AddImmediate : Prop :=
  ∀ (x : RegIdx) (nn : Byte) (s : State), IsWordOf ((0x7#4 ++ x.bits) ++ nn) (.addImm x nn) ∧
    ∃ t, exec (.addImm x nn) s = .next t ∧
      (t.getV x).toNat = ((s.getV x).toNat + nn.toNat) % 256 ∧ t.pc = s.pc + 2 ∧
      OnlyChanges s t fun p => p = .pc ∨ p = .reg x

/-- `LD Vx, Vy` (R93). -/
def Obligations.CopyRegister : Prop :=
  ∀ (x y : RegIdx) (s : State),
    IsWordOf ((0x8#4 ++ x.bits) ++ (y.bits ++ 0x0#4)) (.ldReg x y) ∧
    ∃ t, exec (.ldReg x y) s = .next t ∧ t.getV x = s.getV y ∧ t.pc = s.pc + 2 ∧
      OnlyChanges s t fun p => p = .pc ∨ p = .reg x

/-- `OR`, `AND`, `XOR`, bit by bit (41_alu section 4); that VF is unchanged is the spec's decision D9. -/
def Obligations.LogicalOperations : Prop :=
  ∀ (x y : RegIdx) (s : State),
    (∃ t, exec (.orReg x y) s = .next t ∧
      (∀ k, (t.getV x).getLsbD k = ((s.getV x).getLsbD k || (s.getV y).getLsbD k)) ∧
      t.pc = s.pc + 2 ∧ OnlyChanges s t fun p => p = .pc ∨ p = .reg x) ∧
    (∃ t, exec (.andReg x y) s = .next t ∧
      (∀ k, (t.getV x).getLsbD k = ((s.getV x).getLsbD k && (s.getV y).getLsbD k)) ∧
      t.pc = s.pc + 2 ∧ OnlyChanges s t fun p => p = .pc ∨ p = .reg x) ∧
    (∃ t, exec (.xorReg x y) s = .next t ∧
      (∀ k, (t.getV x).getLsbD k = ((s.getV x).getLsbD k ^^ (s.getV y).getLsbD k)) ∧
      t.pc = s.pc + 2 ∧ OnlyChanges s t fun p => p = .pc ∨ p = .reg x)

/-- `ADD Vx, Vy` (41_alu section 4): the sum modulo 256, VF the carry; that the flag is written last, so
that it wins when X is 15, is the spec's decision D8. -/
def Obligations.AddWithCarryOut : Prop :=
  ∀ (x y : RegIdx) (s : State),
    ∃ t, exec (.addReg x y) s = .next t ∧
      (x ≠ 15 → (t.getV x).toNat = ((s.getV x).toNat + (s.getV y).toNat) % 256) ∧
      t.getV 15 = (if (s.getV x).toNat + (s.getV y).toNat > 255 then 1 else 0) ∧
      t.pc = s.pc + 2 ∧ OnlyChanges s t fun p => p = .pc ∨ p = .reg x ∨ p = .reg 15

/-- `SUB` and `SUBN` (41_alu section 4): the difference modulo 256, VF the absence of a borrow; the flag
last is the spec's decision D8, which low nibble is which operand order is G6. -/
def Obligations.SubtractBothOrders : Prop :=
  ∀ (x y : RegIdx) (s : State),
    (∃ t, exec (.subReg x y) s = .next t ∧
      (x ≠ 15 → ((t.getV x).toNat : Int) = (((s.getV x).toNat : Int) - (s.getV y).toNat) % 256) ∧
      t.getV 15 = (if (s.getV x).toNat ≥ (s.getV y).toNat then 1 else 0) ∧
      t.pc = s.pc + 2 ∧ OnlyChanges s t fun p => p = .pc ∨ p = .reg x ∨ p = .reg 15) ∧
    (∃ t, exec (.subn x y) s = .next t ∧
      (x ≠ 15 → ((t.getV x).toNat : Int) = (((s.getV y).toNat : Int) - (s.getV x).toNat) % 256) ∧
      t.getV 15 = (if (s.getV y).toNat ≥ (s.getV x).toNat then 1 else 0) ∧
      t.pc = s.pc + 2 ∧ OnlyChanges s t fun p => p = .pc ∨ p = .reg x ∨ p = .reg 15)

/-- `SHR` and `SHL` (41_alu section 4) for either value of the open parameter `SHIFT_SOURCE` (D7, log entry
3): the value shifted is `V[X]` or `V[Y]` by the parameter; VF is the bit shifted out, written last (D8). -/
def Obligations.ShiftsByOne : Prop :=
  ∀ (x y : RegIdx) (s : State) (a : Nat),
    a = (if Config.shiftSource = .x then (s.getV x).toNat else (s.getV y).toNat) →
    (∃ t, exec (.shr x y) s = .next t ∧ (x ≠ 15 → (t.getV x).toNat = a / 2) ∧
      t.getV 15 = (if a % 2 = 1 then 1 else 0) ∧
      t.pc = s.pc + 2 ∧ OnlyChanges s t fun p => p = .pc ∨ p = .reg x ∨ p = .reg 15) ∧
    (∃ t, exec (.shl x y) s = .next t ∧ (x ≠ 15 → (t.getV x).toNat = 2 * a % 256) ∧
      t.getV 15 = (if 128 ≤ a then 1 else 0) ∧
      t.pc = s.pc + 2 ∧ OnlyChanges s t fun p => p = .pc ∨ p = .reg x ∨ p = .reg 15)

/-! ### The index register and memory (42_index_memory) -/

/-- `LD I, addr` (R110). -/
def Obligations.LoadIndex : Prop :=
  ∀ (nnn : Addr) (s : State), IsWordOf (0xA#4 ++ nnn) (.ldI nnn) ∧
    ∃ t, exec (.ldI nnn) s = .next t ∧ t.i.toNat = nnn.toNat ∧ t.pc = s.pc + 2 ∧
      OnlyChanges s t fun p => p = .pc ∨ p = .index

/-- `ADD I, Vx` (42_index_memory section 1): modulo 4096 with VF untouched, the policy `wrap12` being the
spec's decision D5 (log entry 7). -/
def Obligations.AddToIndex : Prop :=
  ∀ (x : RegIdx) (s : State),
    ∃ t, exec (.addIVx x) s = .next t ∧ t.i.toNat = (s.i.toNat + (s.getV x).toNat) % 4096 ∧
      t.pc = s.pc + 2 ∧ OnlyChanges s t fun p => p = .pc ∨ p = .index

/-- `LD F, Vx` (42_index_memory section 1): the glyph address of the low nibble, against the configured
`FONT_BASE` (the spec's decision D1, log entry 7). -/
def Obligations.FontAddress : Prop :=
  ∀ (x : RegIdx) (s : State),
    ∃ t, exec (.ldFVx x) s = .next t ∧ t.i.toNat = Config.fontBase + 5 * ((s.getV x).toNat % 16) ∧
      t.pc = s.pc + 2 ∧ OnlyChanges s t fun p => p = .pc ∨ p = .index

/-- `LD B, Vx` in range (42_index_memory section 2): hundreds, tens and ones, in that order (the spec's
decision D11), I unchanged (D10). -/
def Obligations.StoreDecimalDigits : Prop :=
  ∀ (x : RegIdx) (s : State), s.mem.wf → s.i.toNat + 2 < 4096 →
    ∃ t, exec (.ldBVx x) s = .next t ∧
      (t.mem.read s.i.toNat).toNat = (s.getV x).toNat / 100 ∧
      (t.mem.read (s.i.toNat + 1)).toNat = (s.getV x).toNat / 10 % 10 ∧
      (t.mem.read (s.i.toNat + 2)).toNat = (s.getV x).toNat % 10 ∧
      t.pc = s.pc + 2 ∧ OnlyChanges s t fun p => p = .pc ∨ p.InBytes s.i.toNat 3

/-- `LD [I], Vx` in range (42_index_memory section 2): `V[0]` to `V[X]` stored from I on, every other byte
unchanged, I unchanged (the spec's decision D10). -/
def Obligations.DumpRegisters : Prop :=
  ∀ (x : RegIdx) (s : State), s.mem.wf → s.i.toNat + x.val < 4096 →
    ∃ t, exec (.ldMemVx x) s = .next t ∧
      (∀ r : RegIdx, r ≤ x → t.mem.read (s.i.toNat + r.val) = s.getV r) ∧
      t.pc = s.pc + 2 ∧ OnlyChanges s t fun p => p = .pc ∨ p.InBytes s.i.toNat (x.val + 1)

/-- `LD Vx, [I]` in range (42_index_memory section 2): `V[0]` to `V[X]` loaded from I on, the registers
above unchanged, I unchanged (the spec's decision D10). -/
def Obligations.LoadRegisters : Prop :=
  ∀ (x : RegIdx) (s : State), s.i.toNat + x.val < 4096 →
    ∃ t, exec (.ldVxMem x) s = .next t ∧
      (∀ r : RegIdx, r ≤ x → t.getV r = s.mem.read (s.i.toNat + r.val)) ∧
      t.pc = s.pc + 2 ∧ OnlyChanges s t fun p => p = .pc ∨ p.InRegs x

/-- The four memory instructions out of range take `MemoryBoundsError` with the lowest out-of-range address
and change nothing else (20_memory section 7, 60_exceptions section 1; D17, D22; log entries 5, 6 and 10).
`DRW` with N = 0 has no check (D25). -/
def Obligations.OutOfRangeTakesBoundsError : Prop :=
  ∀ (s : State) (x y : RegIdx),
    (4096 ≤ s.i.toNat + 2 → ∃ t, exec (.ldBVx x) s = .next t ∧
      t.err = ⟨.memoryBoundsError, s.pc, (0xF#4 ++ x.bits) ++ 0x33#8,
        BitVec.ofNat 16 (max s.i.toNat 4096)⟩ ∧ OnlyChanges s t fun p => p = .err) ∧
    (4096 ≤ s.i.toNat + x.val → ∃ t, exec (.ldMemVx x) s = .next t ∧
      t.err = ⟨.memoryBoundsError, s.pc, (0xF#4 ++ x.bits) ++ 0x55#8,
        BitVec.ofNat 16 (max s.i.toNat 4096)⟩ ∧ OnlyChanges s t fun p => p = .err) ∧
    (4096 ≤ s.i.toNat + x.val → ∃ t, exec (.ldVxMem x) s = .next t ∧
      t.err = ⟨.memoryBoundsError, s.pc, (0xF#4 ++ x.bits) ++ 0x65#8,
        BitVec.ofNat 16 (max s.i.toNat 4096)⟩ ∧ OnlyChanges s t fun p => p = .err) ∧
    (∀ n : Nibble, 0 < n.toNat → 4096 ≤ s.i.toNat + n.toNat - 1 →
      ∃ t, exec (.drw x y n) s = .next t ∧
        t.err = ⟨.memoryBoundsError, s.pc, (0xD#4 ++ x.bits) ++ (y.bits ++ n),
          BitVec.ofNat 16 (max s.i.toNat 4096)⟩ ∧ OnlyChanges s t fun p => p = .err)

/-- The register dump and load round trip (95_test_vectors S8; 42_index_memory section 2): a load with the
memory and I a dump left brings `V[0]` to `V[X]` back, whatever the registers became in between. -/
def Obligations.DumpThenLoadRoundTrip : Prop :=
  ∀ (x : RegIdx) (s t u : State), s.mem.wf → s.i.toNat + x.val < 4096 →
    exec (.ldMemVx x) s = .next t → u.mem = t.mem → u.i = t.i →
    ∃ w, exec (.ldVxMem x) u = .next w ∧ (∀ r : RegIdx, r ≤ x → w.getV r = s.getV r) ∧
      OnlyChanges u w fun p => p = .pc ∨ p.InRegs x

/-- A store into the instruction stream is seen by the very next fetch (20_memory section 9): a dump over
the word after itself makes `V[0]` and `V[1]` the word the next step fetches. -/
def Obligations.StoreIsSeenByNextFetch : Prop :=
  ∀ (x : RegIdx) (s t : State), s.mem.wf → 1 ≤ x.val → s.i.toNat + x.val < 4096 →
    s.i.toNat = s.pc.toNat + 2 → exec (.ldMemVx x) s = .next t →
    t.fetch = .ok (s.getV 0 ++ s.getV 1)

/-! ### The display (43_display) -/

/-- `CLS` (R120): every pixel false, VF unchanged. -/
def Obligations.ClearDisplay : Prop :=
  ∀ s : State, IsWordOf 0x00E0 .cls ∧
    ∃ t, exec .cls s = .next t ∧ (∀ x y, t.fb.pixel x y = false) ∧ t.pc = s.pc + 2 ∧
      OnlyChanges s t fun p => p = .pc ∨ p.IsPixel

/-- `DRW` in range, or with N = 0 (43_display section 2): every pixel the sprite covers is toggled and no
other changes, and VF is 1 if a covered pixel was set, else 0. The bit order is the spec's decision D12, the
wrapping D6, N = 0 D25, the coordinates read before VF is written D8. -/
def Obligations.DrawSprite : Prop :=
  ∀ (x y : RegIdx) (n : Nibble) (s : State), (n.toNat = 0 ∨ s.i.toNat + n.toNat - 1 < 4096) →
    ∃ t, exec (.drw x y n) s = .next t ∧
      (∀ px py, t.fb.pixel px py = (s.fb.pixel px py ^^
        spriteCovers (s.getV x) (s.getV y) ((List.range n.toNat).map fun k => s.mem.read (s.i.toNat + k))
          px py)) ∧
      ((∃ px py, spriteCovers (s.getV x) (s.getV y)
          ((List.range n.toNat).map fun k => s.mem.read (s.i.toNat + k)) px py = true ∧
          s.fb.pixel px py = true) → t.getV 15 = 1) ∧
      ((∀ px py, spriteCovers (s.getV x) (s.getV y)
          ((List.range n.toNat).map fun k => s.mem.read (s.i.toNat + k)) px py = true →
          s.fb.pixel px py = false) → t.getV 15 = 0) ∧
      t.pc = s.pc + 2 ∧ OnlyChanges s t fun p => p = .pc ∨ p = .reg 15 ∨ p.IsPixel

/-- The same sprite drawn twice at the same place brings every pixel back, and the second collision flag is
1 exactly when the first draw turned a pixel on (43_display section 2, corner case (h), a derived clause of
the spec read with C9; 95_test_vectors S5). -/
def Obligations.DrawTwiceRestoresDisplay : Prop :=
  ∀ (x y : RegIdx) (n : Nibble) (s t u : State), (n.toNat = 0 ∨ s.i.toNat + n.toNat - 1 < 4096) →
    exec (.drw x y n) s = .next t →
    u.fb = t.fb → u.mem = s.mem → u.i = s.i → u.getV x = s.getV x → u.getV y = s.getV y →
    ∃ w, exec (.drw x y n) u = .next w ∧ w.fb = s.fb ∧
      (w.getV 15 = 1 ↔ ∃ px py, s.fb.pixel px py = false ∧ t.fb.pixel px py = true)

/-! ### Random, keypad and timers (44_keypad_timers_random) -/

/-- `RND` (44_keypad_timers_random section 1): the drawn byte masked, a fresh draw each time. The byte is a
free value of the model (D26, log entry 2), so this holds whatever it is. -/
def Obligations.RandomIsMasked : Prop :=
  ∀ (x : RegIdx) (nn : Byte) (s : State),
    ∃ t, exec (.rnd x nn) s = .next t ∧ t.getV x = Config.rnd s.draws &&& nn ∧
      (∀ k, nn.getLsbD k = false → (t.getV x).getLsbD k = false) ∧ t.draws = s.draws + 1 ∧
      t.pc = s.pc + 2 ∧ OnlyChanges s t fun p => p = .pc ∨ p = .reg x ∨ p = .draws

/-- The key skips (R131, R132): the key whose index is the low nibble of `V[X]`, its current state. -/
def Obligations.SkipsOnKey : Prop :=
  ∀ (x : RegIdx) (s : State) (k : KeyIdx), k.val = (s.getV x).toNat % 16 →
    (IsWordOf ((0xE#4 ++ x.bits) ++ 0x9E#8) (.skp x) ∧
      ∃ t, exec (.skp x) s = .next t ∧ t.pc = (if s.key k then s.pc + 4 else s.pc + 2) ∧
        OnlyChanges s t fun p => p = .pc) ∧
    (IsWordOf ((0xE#4 ++ x.bits) ++ 0xA1#8) (.sknp x) ∧
      ∃ t, exec (.sknp x) s = .next t ∧ t.pc = (if s.key k then s.pc + 2 else s.pc + 4) ∧
        OnlyChanges s t fun p => p = .pc)

/-- `LD Vx, DT` (44_keypad_timers_random section 3): the register is DT at the instant of the step, and
after any tick a second read is never larger. -/
def Obligations.ReadDelayTimer : Prop :=
  ∀ (x : RegIdx) (s : State), IsWordOf ((0xF#4 ++ x.bits) ++ 0x07#8) (.ldVxDt x) ∧
    (∃ t, exec (.ldVxDt x) s = .next t ∧ t.getV x = s.dt ∧ t.pc = s.pc + 2 ∧
      OnlyChanges s t fun p => p = .pc ∨ p = .reg x) ∧
    ∀ y, ∃ u, exec (.ldVxDt y) (timerTick s) = .next u ∧ (u.getV y).toNat ≤ s.dt.toNat

/-- `LD DT, Vx` and `LD ST, Vx` (44_keypad_timers_random section 3), and that the sound output follows at
once (60_exceptions section 7). -/
def Obligations.SetTimers : Prop :=
  ∀ (x : RegIdx) (s : State),
    (∃ t, exec (.ldDtVx x) s = .next t ∧ t.dt = s.getV x ∧ t.pc = s.pc + 2 ∧
      OnlyChanges s t fun p => p = .pc ∨ p = .dt) ∧
    (∃ t, exec (.ldStVx x) s = .next t ∧ t.st = s.getV x ∧
      (t.sndOut = true ↔ (s.getV x).toNat ≠ 0) ∧ t.pc = s.pc + 2 ∧
      OnlyChanges s t fun p => p = .pc ∨ p = .st)

/-- `LD Vx, K` arms the latch and leaves PC (44_keypad_timers_random section 4; the latch is the spec's
decision D16, log entry 15). -/
def Obligations.KeyWaitArmsLatch : Prop :=
  ∀ (x : RegIdx) (s : State),
    ∃ t, exec (.ldVxK x) s = .next t ∧ t.wait = some x ∧ t.pc = s.pc ∧
      OnlyChanges s t fun p => p = .wait

/-- The key edges and the completion of a key-wait (60_exceptions section 7; the latch and the serialised
edges are the spec's decision D16): a key already down is no edge; a press updates K, and on a core that is
not halted and waits for `V[x]` it latches the key's index, advances PC and ends the wait; otherwise it only
updates K; a release only updates K. -/
def Obligations.KeyEdges : Prop :=
  ∀ (k : KeyIdx) (s : State),
    (s.key k = true → keyDown k s = s) ∧
    (s.key k = false → (keyDown k s).key k = true) ∧
    (∀ x, s.key k = false → s.err.kind = .none → s.wait = some x →
      ((keyDown k s).getV x).toNat = k.val ∧ (keyDown k s).pc = s.pc + 2 ∧ (keyDown k s).wait = none ∧
      OnlyChanges s (keyDown k s) fun p => p = .key k ∨ p = .reg x ∨ p = .pc ∨ p = .wait) ∧
    (s.key k = false → (s.err.kind ≠ .none ∨ s.wait = none) →
      OnlyChanges s (keyDown k s) fun p => p = .key k) ∧
    (keyUp k s).key k = false ∧ OnlyChanges s (keyUp k s) fun p => p = .key k

/-- The tick (60_exceptions section 6; that a halted core takes none is the spec's decision D19): on a core
that is not halted both counters go down by one if nonzero and stay at zero otherwise, whether or not the
CPU is suspended; on a halted core nothing changes. -/
def Obligations.TickCountsDown : Prop :=
  ∀ s : State,
    (s.err.kind = .none →
      (timerTick s).dt.toNat = s.dt.toNat - 1 ∧ (timerTick s).st.toNat = s.st.toNat - 1 ∧
      OnlyChanges s (timerTick s) fun p => p = .dt ∨ p = .st) ∧
    (s.err.kind ≠ .none → timerTick s = s)

/-- The timers keep running while the CPU is suspended in a key-wait (44_keypad_timers_random section 4,
corner case (b); 95_test_vectors S11): over any mixture of `step` and `tick` events, both timers go down by
the number of ticks, floored at zero, and nothing else changes: PC stays and the wait goes on. The list of
events is the model's, log entry 1. -/
def Obligations.TimersRunWhileSuspended : Prop :=
  ∀ (evs rest : List Event) (s : State) (x : RegIdx),
    (∀ e ∈ evs, e = .step ∨ e = .tick) → s.err.kind = .none → s.wait = some x → s.inputs = evs ++ rest →
    ∃ t, core.run evs.length s = .next t ∧
      t.dt.toNat = s.dt.toNat - evs.count .tick ∧ t.st.toNat = s.st.toNat - evs.count .tick ∧
      t.inputs = rest ∧ OnlyChanges s t fun p => p = .dt ∨ p = .st ∨ p = .inputs

/-- Fairness (60_exceptions section 6; the fairness is the spec's decision D30; schedules are the model's
form of it, log entry 13). In a fair unending run from a suspended core in which no key is pressed and the
host neither resets nor loads, both timers reach zero and stay there while the key-wait goes on at the same
PC (program P5 of 95_test_vectors). In a fair unending run of steps and ticks from a running core, the CPU
step comes, and until it does the timers alone move. -/
def Obligations.FairRunsMakeProgress : Prop :=
  ∀ (sched : Schedule) (s : State), Fair sched s →
    (∀ x, s.err.kind = .none → s.wait = some x →
      (∀ n, sched n = .step ∨ sched n = .tick ∨ ∃ k, sched n = .keyUp k) →
      ∃ n, ∀ m, n ≤ m → (runAt sched s m).dt = 0 ∧ (runAt sched s m).st = 0 ∧
        (runAt sched s m).wait = some x ∧ (runAt sched s m).pc = s.pc) ∧
    (s.Running → (∀ n, sched n = .step ∨ sched n = .tick) →
      ∃ n, sched n = .step ∧
        OnlyChanges s (runAt sched s n) fun p => p = .dt ∨ p = .st ∨ p = .inputs)

/-- A tick before an instruction and a tick after it give the same state, for every instruction that does
not itself read or write a timer (60_exceptions section 6: timers are "advanced independently, not as a side
effect of instruction execution"). -/
def Obligations.TickCommutesWithInstruction : Prop :=
  ∀ (i : Instr) (s t : State),
    (∀ x, i ≠ .ldVxDt x ∧ i ≠ .ldDtVx x ∧ i ≠ .ldStVx x) →
    s.err.kind = .none → exec i s = .next t → t.err.kind = .none →
    exec i (timerTick s) = .next (timerTick t)

/-- No instruction reads ST (10_state section 10): two states that differ in ST alone answer states that
differ in ST alone. -/
def Obligations.SoundTimerIsNeverRead : Prop :=
  ∀ (i : Instr) (s t : State) (b : Byte), exec i s = .next t →
    ∃ u, exec i { s with st := b } = .next u ∧ { u with st := t.st } = t

/-! ### Errors, reset, load (60_exceptions, 70_reset_and_hazards) -/

/-- An instruction takes an error exactly when its own check fails: `CALL` and `RET` check only the stack,
the four memory instructions only addresses, the rest nothing (60_exceptions section 2, a derived rule of
the spec; D25 for N = 0; an error is a next state, log entry 5). -/
def Obligations.InstructionErrsExactlyWhen : Prop :=
  ∀ (i : Instr) (s t : State), s.err.kind = .none → exec i s = .next t →
    (t.err.kind ≠ .none ↔ i.CheckFails s)

/-- Errors are precise (60_exceptions section 3; the record is D17): an instruction that takes an error
changes ERR and nothing else, ERR.pc is PC and ERR.opcode is the instruction's own word. An error
is a next state, log entries 5 and 6. -/
def Obligations.ErrorsArePrecise : Prop :=
  ∀ (i : Instr) (s t : State), s.err.kind = .none → exec i s = .next t → t.err.kind ≠ .none →
    t.err.pc = s.pc ∧ t.pc = s.pc ∧ decodeWord t.err.opcode = .ok i ∧ OnlyChanges s t fun p => p = .err

/-- What each instruction may write, whole (10_state section 14 and section 2; D9, D10): nothing but ERR and
the parts its row lists. -/
def Obligations.InstructionWritesOnlyItsParts : Prop :=
  ∀ (i : Instr) (s t : State), s.mem.wf → exec i s = .next t →
    OnlyChanges s t fun p => p = .err ∨ i.MayWrite s p

/-- The program-counter table (40_control section 1), in natural numbers: from a fetchable PC the additions
never overflow (10_state section 4, a derived clause; D4 and D15 for `RET` and `JP V0`). -/
def Obligations.ProgramCounterTable : Prop :=
  ∀ (i : Instr) (s t : State), s.pc.toNat < 4095 → s.err.kind = .none → exec i s = .next t →
    t.err.kind = .none → t.pc.toNat = i.pcAfter s

/-- VF (10_state section 2): the six flag writers leave 0 or 1 in it, and every other instruction leaves it
unchanged unless VF is a register it names as destination (D8, D9). -/
def Obligations.FlagRegisterDiscipline : Prop :=
  ∀ (i : Instr) (s t : State), s.err.kind = .none → exec i s = .next t → t.err.kind = .none →
    (i.isFlagWriter = true → t.getV 15 = 0 ∨ t.getV 15 = 1) ∧
    (i.isFlagWriter = false → ¬ i.MayWrite s (.reg 15) → t.getV 15 = s.getV 15)

/-- A halted core leaves the halted state by reset alone (60_exceptions section 3; that a load does not
clear ERR is D20), and no other event changes a register, I or the stack. -/
def Obligations.HaltedUntilReset : Prop :=
  ∀ s t : State, s.err.kind ≠ .none → (∀ rest, s.inputs ≠ .reset :: rest) → step s = .next t →
    t.err.kind ≠ .none ∧ (∀ r, t.getV r = s.getV r) ∧ t.i = s.i ∧ t.stack = s.stack

/-- Reset in any state, halted or not, leaves the values of 10_state section 13, and `State.reset` has them
(WAIT is a derived row there and ERR is D17; the font is D1, D2; D27). The model's own fields are kept, log
entry 11. -/
def Obligations.ResetLeavesResetValues : Prop :=
  ∀ s t : State, (t = hostReset s ∨ t = State.reset) →
    (∀ r, t.getV r = 0) ∧ t.i = 0 ∧ t.pc = 0x200 ∧ t.sp = 0 ∧ t.dt = 0 ∧ t.st = 0 ∧
    (∀ x y, t.fb.pixel x y = false) ∧ (∀ k, t.key k = false) ∧ t.wait = none ∧
    t.err = ⟨.none, 0, 0, 0⟩ ∧
    (∀ k, k < 80 → t.mem.read (Config.fontBase + k) = Config.fontData.getD k 0) ∧
    (∀ a, (a < Config.fontBase ∨ Config.fontBase + 80 ≤ a) → t.mem.read a = 0) ∧
    (hostReset s).inputs = s.inputs ∧ (hostReset s).draws = s.draws

/-- A load (70_reset_and_hazards section 2): at most 3584 bytes are placed at 0x200 with zeros after them,
PC is reset and the timers, display, keypad and latch are cleared; more bytes take `LoadError` and nothing
else changes. The zero fill, the cleared latch, what is left alone and the halt are the spec's decision D20,
the record D17; log entries 5 and 11. -/
def Obligations.LoadPlacesImageOrTakesLoadError : Prop :=
  ∀ (image : List Byte) (s : State),
    (image.length ≤ 3584 →
      (∀ k, k < image.length → (hostLoad image s).mem.read (0x200 + k) = image.getD k 0) ∧
      (∀ a, 0x200 + image.length ≤ a → (hostLoad image s).mem.read a = 0) ∧
      (hostLoad image s).pc = 0x200 ∧ (hostLoad image s).dt = 0 ∧ (hostLoad image s).st = 0 ∧
      (∀ x y, (hostLoad image s).fb.pixel x y = false) ∧ (∀ k, (hostLoad image s).key k = false) ∧
      (hostLoad image s).wait = none ∧
      OnlyChanges s (hostLoad image s) fun p => p = .pc ∨ p = .dt ∨ p = .st ∨ p = .wait ∨ p.IsPixel ∨
        (∃ k, p = .key k) ∨ (∃ a, 0x200 ≤ a ∧ p = .byte a)) ∧
    (3584 < image.length →
      (hostLoad image s).err = ⟨.loadError, s.pc, 0, BitVec.ofNat 16 (min image.length 0xFFFF)⟩ ∧
      OnlyChanges s (hostLoad image s) fun p => p = .err)

/-- The end of a run (70_reset_and_hazards section 6, the spec's definition D29): at a jump to itself a CPU
step leaves the whole state unchanged, a tick changes only the timers, a key edge only K, and the run stays
ended. -/
def Obligations.EndedRunStaysEnded : Prop :=
  ∀ (s : State) (a : Addr), s.EndedAt a →
    (s.inputs = [] → step s = .next s) ∧
    (timerTick s).EndedAt a ∧ (OnlyChanges s (timerTick s) fun p => p = .dt ∨ p = .st) ∧
    ∀ k, (keyDown k s).EndedAt a ∧ (OnlyChanges s (keyDown k s) fun p => p = .key k) ∧
      (keyUp k s).EndedAt a ∧ OnlyChanges s (keyUp k s) fun p => p = .key k

/-! ### The invariant -/

/-- Every step of the machine, of whatever agent, keeps the invariant of the core (derived clauses of
10_state sections 3, 4, 5, 6, 11; D18, D23). -/
def Obligations.StepKeepsInvariant : Prop :=
  ∀ s t : State, s.Inv → step s = .next t → t.Inv

/-- The state after reset meets the invariant (10_state section 13). -/
def Obligations.ResetMeetsInvariant : Prop := State.reset.Inv
end

