-- ==== Sys2Proof/Laws/Decode.lean ====
section
/-!
SUPPORT. The fields of the formats of R52: what each field of a built word reads, and the two bytes of a
word put back together.
-/

namespace Sys2Proof

theorem fieldOp_toNat (w : Word) : (fieldOp w).toNat = w.toNat / 4096 := by
  have := w.isLt
  simp only [fieldOp, BitVec.extractLsb'_toNat, Nat.shiftRight_eq_div_pow]
  omega

theorem fieldX_toNat (w : Word) : (fieldX w).val = w.toNat / 256 % 16 := by
  show (w.extractLsb' 8 4).toNat = _
  simp [BitVec.extractLsb'_toNat, Nat.shiftRight_eq_div_pow]

theorem fieldY_toNat (w : Word) : (fieldY w).val = w.toNat / 16 % 16 := by
  show (w.extractLsb' 4 4).toNat = _
  simp [BitVec.extractLsb'_toNat, Nat.shiftRight_eq_div_pow]

theorem fieldN_toNat (w : Word) : (fieldN w).toNat = w.toNat % 16 := by
  simp [fieldN, BitVec.extractLsb'_toNat]

theorem fieldNN_toNat (w : Word) : (fieldNN w).toNat = w.toNat % 256 := by
  simp [fieldNN, BitVec.extractLsb'_toNat]

theorem fieldNNN_toNat (w : Word) : (fieldNNN w).toNat = w.toNat % 4096 := by
  simp [fieldNNN, BitVec.extractLsb'_toNat]

theorem RegIdx.bits_toNat (x : RegIdx) : x.bits.toNat = x.val := rfl

theorem formatA_toNat (op : Nibble) (nnn : Addr) : (formatA op nnn).toNat = op.toNat * 4096 + nnn.toNat := by
  have h := nnn.isLt
  rw [formatA, BitVec.toNat_append, ← Nat.shiftLeft_add_eq_or_of_lt h, Nat.shiftLeft_eq]

theorem formatI_toNat (op : Nibble) (x : RegIdx) (nn : Byte) :
    (formatI op x nn).toNat = op.toNat * 4096 + x.val * 256 + nn.toNat := by
  have h := nn.isLt
  have hx := x.bits.isLt
  rw [formatI, BitVec.toNat_append, ← Nat.shiftLeft_add_eq_or_of_lt h, Nat.shiftLeft_eq, BitVec.toNat_append,
    ← Nat.shiftLeft_add_eq_or_of_lt hx, Nat.shiftLeft_eq, RegIdx.bits_toNat]
  omega

theorem formatR_toNat (op : Nibble) (x y : RegIdx) (n : Nibble) :
    (formatR op x y n).toNat = op.toNat * 4096 + x.val * 256 + y.val * 16 + n.toNat := by
  have h := n.isLt
  have hx := x.bits.isLt
  have hy := y.bits.isLt
  have hyn := (y.bits ++ n).isLt
  rw [formatR, BitVec.toNat_append, ← Nat.shiftLeft_add_eq_or_of_lt hyn, Nat.shiftLeft_eq, BitVec.toNat_append,
    ← Nat.shiftLeft_add_eq_or_of_lt hx, BitVec.toNat_append, ← Nat.shiftLeft_add_eq_or_of_lt h,
    Nat.shiftLeft_eq, Nat.shiftLeft_eq, RegIdx.bits_toNat, RegIdx.bits_toNat]
  omega

@[simp] theorem fieldOp_formatA (op : Nibble) (nnn : Addr) : fieldOp (formatA op nnn) = op := by
  have h := nnn.isLt
  apply BitVec.eq_of_toNat_eq; rw [fieldOp_toNat, formatA_toNat]; omega

@[simp] theorem fieldNNN_formatA (op : Nibble) (nnn : Addr) : fieldNNN (formatA op nnn) = nnn := by
  have h := nnn.isLt
  apply BitVec.eq_of_toNat_eq; rw [fieldNNN_toNat, formatA_toNat]; omega

@[simp] theorem fieldOp_formatI (op : Nibble) (x : RegIdx) (nn : Byte) : fieldOp (formatI op x nn) = op := by
  have h := nn.isLt
  apply BitVec.eq_of_toNat_eq; rw [fieldOp_toNat, formatI_toNat]; omega

@[simp] theorem fieldX_formatI (op : Nibble) (x : RegIdx) (nn : Byte) : fieldX (formatI op x nn) = x := by
  have h := nn.isLt
  apply Fin.ext; rw [fieldX_toNat, formatI_toNat]; omega

@[simp] theorem fieldNN_formatI (op : Nibble) (x : RegIdx) (nn : Byte) : fieldNN (formatI op x nn) = nn := by
  have h := nn.isLt
  apply BitVec.eq_of_toNat_eq; rw [fieldNN_toNat, formatI_toNat]; omega

@[simp] theorem fieldOp_formatR (op : Nibble) (x y : RegIdx) (n : Nibble) :
    fieldOp (formatR op x y n) = op := by
  have h := n.isLt
  apply BitVec.eq_of_toNat_eq; rw [fieldOp_toNat, formatR_toNat]; omega

@[simp] theorem fieldX_formatR (op : Nibble) (x y : RegIdx) (n : Nibble) :
    fieldX (formatR op x y n) = x := by
  have h := n.isLt
  apply Fin.ext; rw [fieldX_toNat, formatR_toNat]; omega

@[simp] theorem fieldY_formatR (op : Nibble) (x y : RegIdx) (n : Nibble) :
    fieldY (formatR op x y n) = y := by
  have h := n.isLt
  apply Fin.ext; rw [fieldY_toNat, formatR_toNat]; omega

@[simp] theorem fieldN_formatR (op : Nibble) (x y : RegIdx) (n : Nibble) :
    fieldN (formatR op x y n) = n := by
  have h := n.isLt
  apply BitVec.eq_of_toNat_eq; rw [fieldN_toNat, formatR_toNat]; omega

/-- A word is built from its fields (R51, R52), in each of the three layouts. -/
theorem formatA_fields (w : Word) : formatA (fieldOp w) (fieldNNN w) = w := by
  apply BitVec.eq_of_toNat_eq; rw [formatA_toNat, fieldOp_toNat, fieldNNN_toNat]; omega

theorem formatI_fields (w : Word) : formatI (fieldOp w) (fieldX w) (fieldNN w) = w := by
  apply BitVec.eq_of_toNat_eq; rw [formatI_toNat, fieldOp_toNat, fieldX_toNat, fieldNN_toNat]; omega

theorem formatR_fields (w : Word) : formatR (fieldOp w) (fieldX w) (fieldY w) (fieldN w) = w := by
  apply BitVec.eq_of_toNat_eq
  rw [formatR_toNat, fieldOp_toNat, fieldX_toNat, fieldY_toNat, fieldN_toNat]; omega

/-- A word rebuilt from its bytes, high byte first (R34). -/
theorem wordOfBytes_bytes (w : Word) : wordOfBytes (w.extractLsb' 8 8) (w.extractLsb' 0 8) = w := by
  have h := w.isLt
  have h2 := (w.extractLsb' 0 8).isLt
  apply BitVec.eq_of_toNat_eq
  rw [wordOfBytes, BitVec.toNat_append, ← Nat.shiftLeft_add_eq_or_of_lt h2, Nat.shiftLeft_eq]
  simp only [BitVec.extractLsb'_toNat, Nat.shiftRight_eq_div_pow]
  omega

theorem wordOfBytes_toNat (hi lo : Byte) : (wordOfBytes hi lo).toNat = hi.toNat * 256 + lo.toNat := by
  rw [wordOfBytes, BitVec.toNat_append, ← Nat.shiftLeft_add_eq_or_of_lt lo.isLt, Nat.shiftLeft_eq]

end Sys2Proof
end

