-- ==== Sys2Proof/Laws/State.lean ====
section
/-!
SUPPORT. One lemma per field per update of State, true by rfl, and what `getV`, `key` and `pixel` read
after an update, so that no proof unfolds a record update.
-/

namespace Sys2Proof.Machine

/-! ### setV -/

@[simp] theorem State.setV_v (s : State) (x : RegIdx) (b : Byte) : (s.setV x b).v = s.v.set x.val b := rfl
@[simp] theorem State.setV_i (s : State) (x : RegIdx) (b : Byte) : (s.setV x b).i = s.i := rfl
@[simp] theorem State.setV_pc (s : State) (x : RegIdx) (b : Byte) : (s.setV x b).pc = s.pc := rfl
@[simp] theorem State.setV_stack (s : State) (x : RegIdx) (b : Byte) : (s.setV x b).stack = s.stack := rfl
@[simp] theorem State.setV_mem (s : State) (x : RegIdx) (b : Byte) : (s.setV x b).mem = s.mem := rfl
@[simp] theorem State.setV_fb (s : State) (x : RegIdx) (b : Byte) : (s.setV x b).fb = s.fb := rfl
@[simp] theorem State.setV_keys (s : State) (x : RegIdx) (b : Byte) : (s.setV x b).keys = s.keys := rfl
@[simp] theorem State.setV_wait (s : State) (x : RegIdx) (b : Byte) : (s.setV x b).wait = s.wait := rfl
@[simp] theorem State.setV_dt (s : State) (x : RegIdx) (b : Byte) : (s.setV x b).dt = s.dt := rfl
@[simp] theorem State.setV_st (s : State) (x : RegIdx) (b : Byte) : (s.setV x b).st = s.st := rfl
@[simp] theorem State.setV_err (s : State) (x : RegIdx) (b : Byte) : (s.setV x b).err = s.err := rfl
@[simp] theorem State.setV_inputs (s : State) (x : RegIdx) (b : Byte) : (s.setV x b).inputs = s.inputs := rfl
@[simp] theorem State.setV_draws (s : State) (x : RegIdx) (b : Byte) : (s.setV x b).draws = s.draws := rfl

/-! ### setKey -/

@[simp] theorem State.setKey_v (s : State) (k : KeyIdx) (c : Bool) : (s.setKey k c).v = s.v := rfl
@[simp] theorem State.setKey_i (s : State) (k : KeyIdx) (c : Bool) : (s.setKey k c).i = s.i := rfl
@[simp] theorem State.setKey_pc (s : State) (k : KeyIdx) (c : Bool) : (s.setKey k c).pc = s.pc := rfl
@[simp] theorem State.setKey_stack (s : State) (k : KeyIdx) (c : Bool) : (s.setKey k c).stack = s.stack := rfl
@[simp] theorem State.setKey_mem (s : State) (k : KeyIdx) (c : Bool) : (s.setKey k c).mem = s.mem := rfl
@[simp] theorem State.setKey_fb (s : State) (k : KeyIdx) (c : Bool) : (s.setKey k c).fb = s.fb := rfl
@[simp] theorem State.setKey_keys (s : State) (k : KeyIdx) (c : Bool) : (s.setKey k c).keys = s.keys.set k.val c := rfl
@[simp] theorem State.setKey_wait (s : State) (k : KeyIdx) (c : Bool) : (s.setKey k c).wait = s.wait := rfl
@[simp] theorem State.setKey_dt (s : State) (k : KeyIdx) (c : Bool) : (s.setKey k c).dt = s.dt := rfl
@[simp] theorem State.setKey_st (s : State) (k : KeyIdx) (c : Bool) : (s.setKey k c).st = s.st := rfl
@[simp] theorem State.setKey_err (s : State) (k : KeyIdx) (c : Bool) : (s.setKey k c).err = s.err := rfl
@[simp] theorem State.setKey_inputs (s : State) (k : KeyIdx) (c : Bool) : (s.setKey k c).inputs = s.inputs := rfl
@[simp] theorem State.setKey_draws (s : State) (k : KeyIdx) (c : Bool) : (s.setKey k c).draws = s.draws := rfl

/-! ### advance -/

@[simp] theorem State.advance_v (s : State) : (s.advance).v = s.v := rfl
@[simp] theorem State.advance_i (s : State) : (s.advance).i = s.i := rfl
@[simp] theorem State.advance_pc (s : State) : (s.advance).pc = s.pc + 2 := rfl
@[simp] theorem State.advance_stack (s : State) : (s.advance).stack = s.stack := rfl
@[simp] theorem State.advance_mem (s : State) : (s.advance).mem = s.mem := rfl
@[simp] theorem State.advance_fb (s : State) : (s.advance).fb = s.fb := rfl
@[simp] theorem State.advance_keys (s : State) : (s.advance).keys = s.keys := rfl
@[simp] theorem State.advance_wait (s : State) : (s.advance).wait = s.wait := rfl
@[simp] theorem State.advance_dt (s : State) : (s.advance).dt = s.dt := rfl
@[simp] theorem State.advance_st (s : State) : (s.advance).st = s.st := rfl
@[simp] theorem State.advance_err (s : State) : (s.advance).err = s.err := rfl
@[simp] theorem State.advance_inputs (s : State) : (s.advance).inputs = s.inputs := rfl
@[simp] theorem State.advance_draws (s : State) : (s.advance).draws = s.draws := rfl

/-! ### skipIf -/

@[simp] theorem State.skipIf_v (s : State) (c : Bool) : (s.skipIf c).v = s.v := rfl
@[simp] theorem State.skipIf_i (s : State) (c : Bool) : (s.skipIf c).i = s.i := rfl
@[simp] theorem State.skipIf_pc (s : State) (c : Bool) : (s.skipIf c).pc = if c then s.pc + 4 else s.pc + 2 := rfl
@[simp] theorem State.skipIf_stack (s : State) (c : Bool) : (s.skipIf c).stack = s.stack := rfl
@[simp] theorem State.skipIf_mem (s : State) (c : Bool) : (s.skipIf c).mem = s.mem := rfl
@[simp] theorem State.skipIf_fb (s : State) (c : Bool) : (s.skipIf c).fb = s.fb := rfl
@[simp] theorem State.skipIf_keys (s : State) (c : Bool) : (s.skipIf c).keys = s.keys := rfl
@[simp] theorem State.skipIf_wait (s : State) (c : Bool) : (s.skipIf c).wait = s.wait := rfl
@[simp] theorem State.skipIf_dt (s : State) (c : Bool) : (s.skipIf c).dt = s.dt := rfl
@[simp] theorem State.skipIf_st (s : State) (c : Bool) : (s.skipIf c).st = s.st := rfl
@[simp] theorem State.skipIf_err (s : State) (c : Bool) : (s.skipIf c).err = s.err := rfl
@[simp] theorem State.skipIf_inputs (s : State) (c : Bool) : (s.skipIf c).inputs = s.inputs := rfl
@[simp] theorem State.skipIf_draws (s : State) (c : Bool) : (s.skipIf c).draws = s.draws := rfl

/-! ### jump -/

@[simp] theorem State.jump_v (s : State) (a : Word) : (s.jump a).v = s.v := rfl
@[simp] theorem State.jump_i (s : State) (a : Word) : (s.jump a).i = s.i := rfl
@[simp] theorem State.jump_pc (s : State) (a : Word) : (s.jump a).pc = a := rfl
@[simp] theorem State.jump_stack (s : State) (a : Word) : (s.jump a).stack = s.stack := rfl
@[simp] theorem State.jump_mem (s : State) (a : Word) : (s.jump a).mem = s.mem := rfl
@[simp] theorem State.jump_fb (s : State) (a : Word) : (s.jump a).fb = s.fb := rfl
@[simp] theorem State.jump_keys (s : State) (a : Word) : (s.jump a).keys = s.keys := rfl
@[simp] theorem State.jump_wait (s : State) (a : Word) : (s.jump a).wait = s.wait := rfl
@[simp] theorem State.jump_dt (s : State) (a : Word) : (s.jump a).dt = s.dt := rfl
@[simp] theorem State.jump_st (s : State) (a : Word) : (s.jump a).st = s.st := rfl
@[simp] theorem State.jump_err (s : State) (a : Word) : (s.jump a).err = s.err := rfl
@[simp] theorem State.jump_inputs (s : State) (a : Word) : (s.jump a).inputs = s.inputs := rfl
@[simp] theorem State.jump_draws (s : State) (a : Word) : (s.jump a).draws = s.draws := rfl

/-! ### raise -/

@[simp] theorem State.raise_v (s : State) (k : ErrKind) (w a : Word) : (s.raise k w a).v = s.v := rfl
@[simp] theorem State.raise_i (s : State) (k : ErrKind) (w a : Word) : (s.raise k w a).i = s.i := rfl
@[simp] theorem State.raise_pc (s : State) (k : ErrKind) (w a : Word) : (s.raise k w a).pc = s.pc := rfl
@[simp] theorem State.raise_stack (s : State) (k : ErrKind) (w a : Word) : (s.raise k w a).stack = s.stack := rfl
@[simp] theorem State.raise_mem (s : State) (k : ErrKind) (w a : Word) : (s.raise k w a).mem = s.mem := rfl
@[simp] theorem State.raise_fb (s : State) (k : ErrKind) (w a : Word) : (s.raise k w a).fb = s.fb := rfl
@[simp] theorem State.raise_keys (s : State) (k : ErrKind) (w a : Word) : (s.raise k w a).keys = s.keys := rfl
@[simp] theorem State.raise_wait (s : State) (k : ErrKind) (w a : Word) : (s.raise k w a).wait = s.wait := rfl
@[simp] theorem State.raise_dt (s : State) (k : ErrKind) (w a : Word) : (s.raise k w a).dt = s.dt := rfl
@[simp] theorem State.raise_st (s : State) (k : ErrKind) (w a : Word) : (s.raise k w a).st = s.st := rfl
@[simp] theorem State.raise_err (s : State) (k : ErrKind) (w a : Word) : (s.raise k w a).err = ⟨k, s.pc, w, a⟩ := rfl
@[simp] theorem State.raise_inputs (s : State) (k : ErrKind) (w a : Word) : (s.raise k w a).inputs = s.inputs := rfl
@[simp] theorem State.raise_draws (s : State) (k : ErrKind) (w a : Word) : (s.raise k w a).draws = s.draws := rfl

/-! ### setResultFlag -/

@[simp] theorem State.setResultFlag_v (s : State) (x : RegIdx) (b : Byte) (c : Bool) : (s.setResultFlag x b c).v = (s.v.set x.val b).set 15 (flagByte c) := rfl
@[simp] theorem State.setResultFlag_i (s : State) (x : RegIdx) (b : Byte) (c : Bool) : (s.setResultFlag x b c).i = s.i := rfl
@[simp] theorem State.setResultFlag_pc (s : State) (x : RegIdx) (b : Byte) (c : Bool) : (s.setResultFlag x b c).pc = s.pc := rfl
@[simp] theorem State.setResultFlag_stack (s : State) (x : RegIdx) (b : Byte) (c : Bool) : (s.setResultFlag x b c).stack = s.stack := rfl
@[simp] theorem State.setResultFlag_mem (s : State) (x : RegIdx) (b : Byte) (c : Bool) : (s.setResultFlag x b c).mem = s.mem := rfl
@[simp] theorem State.setResultFlag_fb (s : State) (x : RegIdx) (b : Byte) (c : Bool) : (s.setResultFlag x b c).fb = s.fb := rfl
@[simp] theorem State.setResultFlag_keys (s : State) (x : RegIdx) (b : Byte) (c : Bool) : (s.setResultFlag x b c).keys = s.keys := rfl
@[simp] theorem State.setResultFlag_wait (s : State) (x : RegIdx) (b : Byte) (c : Bool) : (s.setResultFlag x b c).wait = s.wait := rfl
@[simp] theorem State.setResultFlag_dt (s : State) (x : RegIdx) (b : Byte) (c : Bool) : (s.setResultFlag x b c).dt = s.dt := rfl
@[simp] theorem State.setResultFlag_st (s : State) (x : RegIdx) (b : Byte) (c : Bool) : (s.setResultFlag x b c).st = s.st := rfl
@[simp] theorem State.setResultFlag_err (s : State) (x : RegIdx) (b : Byte) (c : Bool) : (s.setResultFlag x b c).err = s.err := rfl
@[simp] theorem State.setResultFlag_inputs (s : State) (x : RegIdx) (b : Byte) (c : Bool) : (s.setResultFlag x b c).inputs = s.inputs := rfl
@[simp] theorem State.setResultFlag_draws (s : State) (x : RegIdx) (b : Byte) (c : Bool) : (s.setResultFlag x b c).draws = s.draws := rfl

/-! ### Registers -/

/-- A register read after a register write (R10): every register holds what was last written. -/
@[simp] theorem State.getV_setV (s : State) (x r : RegIdx) (b : Byte) :
    (s.setV x b).getV r = if x = r then b else s.getV r := by
  simp only [State.getV, State.setV, Vector.getElem_set, Fin.ext_iff]

/-- A register read depends on the register file alone. -/
theorem State.getV_congr {s t : State} (h : s.v = t.v) (r : RegIdx) : s.getV r = t.getV r := by
  simp only [State.getV, h]

@[simp] theorem State.getV_setResultFlag (s : State) (x r : RegIdx) (b : Byte) (c : Bool) :
    (s.setResultFlag x b c).getV r = if r = 15 then flagByte c else if x = r then b else s.getV r := by
  simp only [State.setResultFlag, State.getV_setV, eq_comm]

/-- The registers after a load of `V[0]` to `V[X]` (R115). -/
@[simp] theorem State.getElem_regsLoaded (s : State) (x : RegIdx) (a : Nat) (r : RegIdx) :
    (s.regsLoaded x a)[r.val] = if r ≤ x then s.mem.read (a + r.val) else s.getV r := by
  simp [State.regsLoaded]

theorem State.length_regsUpTo (s : State) (x : RegIdx) : (s.regsUpTo x).length = x.val + 1 := by
  simp [State.regsUpTo]

theorem State.getD_regsUpTo (s : State) (x : RegIdx) (k : RegIdx) (h : k ≤ x) :
    (s.regsUpTo x).getD k.val 0 = s.getV k := by
  have hk : k.val < x.val + 1 := Nat.lt_succ_of_le h
  have hk' : k.val < ((List.range (x.val + 1)).map fun k => s.getV (Fin.ofNat 16 k)).length := by simpa using hk
  have e : Fin.ofNat 16 k.val = k := Fin.ext (Nat.mod_eq_of_lt k.isLt)
  rw [State.regsUpTo, List.getD_eq_getElem _ _ hk', List.getElem_map, List.getElem_range, e]

@[simp] theorem State.getV_setKey (s : State) (k : KeyIdx) (c : Bool) (r : RegIdx) : (s.setKey k c).getV r = s.getV r := rfl
@[simp] theorem State.getV_advance (s : State) (r : RegIdx) : (s.advance).getV r = s.getV r := rfl
@[simp] theorem State.getV_skipIf (s : State) (c : Bool) (r : RegIdx) : (s.skipIf c).getV r = s.getV r := rfl
@[simp] theorem State.getV_jump (s : State) (a : Word) (r : RegIdx) : (s.jump a).getV r = s.getV r := rfl
@[simp] theorem State.getV_raise (s : State) (k : ErrKind) (w a : Word) (r : RegIdx) : (s.raise k w a).getV r = s.getV r := rfl

/-! ### Keys -/

@[simp] theorem State.key_setKey (s : State) (k j : KeyIdx) (c : Bool) :
    (s.setKey k c).key j = if k = j then c else s.key j := by
  simp only [State.key, State.setKey, Vector.getElem_set, Fin.ext_iff]

@[simp] theorem State.key_setV (s : State) (x : RegIdx) (b : Byte) (j : KeyIdx) : (s.setV x b).key j = s.key j := rfl
@[simp] theorem State.key_advance (s : State) (j : KeyIdx) : (s.advance).key j = s.key j := rfl
@[simp] theorem State.key_skipIf (s : State) (c : Bool) (j : KeyIdx) : (s.skipIf c).key j = s.key j := rfl
@[simp] theorem State.key_jump (s : State) (a : Word) (j : KeyIdx) : (s.jump a).key j = s.key j := rfl
@[simp] theorem State.key_raise (s : State) (k : ErrKind) (w a : Word) (j : KeyIdx) : (s.raise k w a).key j = s.key j := rfl
@[simp] theorem State.key_setResultFlag (s : State) (x : RegIdx) (b : Byte) (c : Bool) (j : KeyIdx) : (s.setResultFlag x b c).key j = s.key j := rfl

/-! ### The display -/

@[simp] theorem Frame.pixel_clear (x : Fin 64) (y : Fin 32) : Frame.clear.pixel x y = false := by
  simp [Frame.pixel, Frame.clear]

/-- A toggle changes one pixel and no other (R16, R121). -/
theorem Frame.pixel_toggle (f : Frame) (x x' : Fin 64) (y y' : Fin 32) :
    (f.toggle x y).pixel x' y' = (f.pixel x' y' ^^ (x' == x && y' == y)) := by
  simp only [Frame.pixel, Frame.toggle, Vector.getElem_set]
  by_cases hy : y = y'
  · subst hy
    by_cases hx : x = x'
    · subst hx; simp
    · have h1 : ¬ (x.val = x'.val) := fun h => hx (Fin.ext h)
      have h2 : (x' == x) = false := beq_eq_false_iff_ne.2 (Ne.symm hx)
      simp [h1, h2]
  · have h1 : ¬ (y.val = y'.val) := fun h => hy (Fin.ext h)
    have h2 : (y' == y) = false := beq_eq_false_iff_ne.2 (Ne.symm hy)
    simp [h1, h2]

/-- Two displays with the same pixels are the same. -/
theorem Frame.ext {f g : Frame} (h : ∀ x y, f.pixel x y = g.pixel x y) : f = g := by
  apply Vector.ext; intro y hy
  apply Vector.ext; intro x hx
  exact h ⟨x, hx⟩ ⟨y, hy⟩

/-! ### Halting -/

theorem State.halted_iff (s : State) : s.halted = true ↔ s.err.kind ≠ .none := by
  simp [State.halted]

theorem State.not_halted_iff (s : State) : s.halted = false ↔ s.err.kind = .none := by
  simp [State.halted]

end Sys2Proof.Machine
end

