-- ==== Sys2Proof/Laws/Display.lean ====
section
/-!
SUPPORT. What the sprite blitter does (43_display R121), said once: under `wrap` every pixel of the display
is XORed with whether the sprite covers it, and the collision is whether a covered pixel was set. The loops
are first flattened into one fold over the positions (row, column) of the sprite, no two of which fall on
one pixel (R121 corner case (c)).
-/

namespace Sys2Proof.Machine

/-- Where the position (row, column) of a sprite at `(x0, y0)` falls under `wrap` (R123). -/
def wrapPos (x0 y0 : Byte) (q : Nat × Nat) : Fin 64 × Fin 32 :=
  (Fin.ofNat 64 (x0.toNat + q.2), Fin.ofNat 32 (y0.toNat + q.1))

/-- One toggle of the flattened loops: `on` says whether the sprite's bit is on. -/
def plotAt (on : Nat × Nat → Bool) (pos : Nat × Nat → Fin 64 × Fin 32) (acc : Frame × Bool)
    (q : Nat × Nat) : Frame × Bool :=
  if on q then (acc.1.toggle (pos q).1 (pos q).2, acc.2 || acc.1.pixel (pos q).1 (pos q).2) else acc

/-- The positions of `n` rows of a sprite, from row `r` on. -/
def positions (r n : Nat) : List (Nat × Nat) :=
  (List.range n).flatMap fun k => (List.range 8).map fun c => (r + k, c)

theorem mem_positions {r n : Nat} {q : Nat × Nat} :
    q ∈ positions r n ↔ r ≤ q.1 ∧ q.1 < r + n ∧ q.2 < 8 := by
  obtain ⟨a, c⟩ := q
  simp only [positions, List.mem_flatMap, List.mem_map, List.mem_range, Prod.mk.injEq]
  constructor
  · rintro ⟨k, hk, d, hd, rfl, rfl⟩; exact ⟨by omega, by omega, hd⟩
  · rintro ⟨h1, h2, h3⟩; exact ⟨a - r, by omega, c, h3, by omega, rfl⟩

theorem positions_succ (r n : Nat) :
    positions r (n + 1) = ((List.range 8).map fun c => (r, c)) ++ positions (r + 1) n := by
  simp only [positions, List.range_succ_eq_map, List.flatMap_cons, List.flatMap_map, Nat.add_zero]
  congr 2
  funext k
  simp only [Nat.add_assoc, Nat.add_comm 1]

theorem nodup_positions (r n : Nat) : (positions r n).Nodup := by
  induction n generalizing r with
  | zero => simp [positions]
  | succ n ih =>
    rw [positions_succ, List.nodup_append]
    refine ⟨List.nodup_range.map fun a b h => by simpa using h, ih _, ?_⟩
    rintro a ha b hb rfl
    rw [mem_positions] at hb
    obtain ⟨c, _, rfl⟩ := List.mem_map.1 ha
    exact absurd hb.1 (by simp)

theorem foldl_congr_mem {α β : Type} {f g : β → α → β} (l : List α) (h : ∀ b, ∀ a ∈ l, f b a = g b a)
    (b : β) : l.foldl f b = l.foldl g b := by
  induction l generalizing b with
  | nil => rfl
  | cons a l ih =>
    rw [List.foldl_cons, List.foldl_cons, h b a (by simp), ih fun b c hc => h b c (by simp [hc])]

/-- The nested loops of `DRW` under `wrap` as one fold over the positions. -/
theorem plotRows_eq_foldl (x0 y0 : Byte) (bs : List Byte) (r : Nat) (acc : Frame × Bool) :
    plotRows .wrap x0 y0 r bs acc =
      (positions r bs.length).foldl
        (plotAt (fun q => (bs.getD (q.1 - r) 0).getLsbD (7 - q.2)) (wrapPos x0 y0)) acc := by
  induction bs generalizing r acc with
  | nil => simp [plotRows, positions]
  | cons b bs ih =>
    rw [plotRows, ih, List.length_cons, positions_succ, List.foldl_append]
    have row : plotRow .wrap x0 y0 r b acc = ((List.range 8).map fun c => (r, c)).foldl
        (plotAt (fun q => ((b :: bs).getD (q.1 - r) 0).getLsbD (7 - q.2)) (wrapPos x0 y0)) acc := by
      rw [plotRow, List.foldl_map]
      refine foldl_congr_mem _ (fun acc c _ => ?_) acc
      simp [plotBit, plotAt, pixelAt, wrapPos]
    rw [row]
    refine foldl_congr_mem _ (fun acc q hq => ?_) _
    have hq1 := (mem_positions.1 hq).1
    have e : q.1 - r = (q.1 - (r + 1)) + 1 := by omega
    simp only [plotAt, e, List.getD_cons_succ]

/-- A fold of toggles at pairwise different pixels XORs each pixel with whether it is hit. -/
theorem pixel_foldl_plotAt (on : Nat × Nat → Bool) (pos : Nat × Nat → Fin 64 × Fin 32)
    (l : List (Nat × Nat)) (hn : l.Nodup) (hi : ∀ q ∈ l, ∀ q' ∈ l, pos q = pos q' → q = q')
    (acc : Frame × Bool) (x : Fin 64) (y : Fin 32) :
    (l.foldl (plotAt on pos) acc).1.pixel x y =
      (acc.1.pixel x y ^^ l.any fun q => on q && (x == (pos q).1 && y == (pos q).2)) := by
  induction l generalizing acc with
  | nil => simp
  | cons q l ih =>
    rw [List.nodup_cons] at hn
    rw [List.foldl_cons, ih hn.2 (fun a ha b hb => hi a (by simp [ha]) b (by simp [hb])), List.any_cons]
    by_cases hon : on q = true
    · have e : plotAt on pos acc q = (acc.1.toggle (pos q).1 (pos q).2,
        acc.2 || acc.1.pixel (pos q).1 (pos q).2) := by simp [plotAt, hon]
      rw [e, Frame.pixel_toggle]
      by_cases hxy : x = (pos q).1 ∧ y = (pos q).2
      · have none : (l.any fun q' => on q' && (x == (pos q').1 && y == (pos q').2)) = false := by
          rw [List.any_eq_false]
          intro q' hq' h
          simp only [Bool.and_eq_true, beq_iff_eq] at h
          have : pos q = pos q' := Prod.ext (hxy.1.symm.trans h.2.1) (hxy.2.symm.trans h.2.2)
          have := hi q (by simp) q' (by simp [hq']) this
          exact hn.1 (this ▸ hq')
        rw [none]
        simp [hon, hxy.1, hxy.2]
      · have : (x == (pos q).1 && y == (pos q).2) = false := by
          rw [Bool.eq_false_iff]; intro h; simp at h; exact hxy h
        simp [this]
    · simp [plotAt, hon]

/-- The collision of a fold of toggles at pairwise different pixels: some hit pixel was set at the start. -/
theorem hit_foldl_plotAt (on : Nat × Nat → Bool) (pos : Nat × Nat → Fin 64 × Fin 32)
    (l : List (Nat × Nat)) (hn : l.Nodup) (hi : ∀ q ∈ l, ∀ q' ∈ l, pos q = pos q' → q = q')
    (acc : Frame × Bool) :
    (l.foldl (plotAt on pos) acc).2 =
      (acc.2 || l.any fun q => on q && acc.1.pixel (pos q).1 (pos q).2) := by
  induction l generalizing acc with
  | nil => simp
  | cons q l ih =>
    rw [List.nodup_cons] at hn
    rw [List.foldl_cons, ih hn.2 (fun a ha b hb => hi a (by simp [ha]) b (by simp [hb])), List.any_cons]
    by_cases hon : on q = true
    · have e : plotAt on pos acc q = (acc.1.toggle (pos q).1 (pos q).2,
        acc.2 || acc.1.pixel (pos q).1 (pos q).2) := by simp [plotAt, hon]
      have tail : (l.any fun q' => on q' && (acc.1.toggle (pos q).1 (pos q).2).pixel (pos q').1 (pos q').2) =
          l.any fun q' => on q' && acc.1.pixel (pos q').1 (pos q').2 := by
        rw [Bool.eq_iff_iff, List.any_eq_true, List.any_eq_true]
        refine exists_congr fun q' => and_congr_right fun hq' => ?_
        have : ((pos q').1 == (pos q).1 && (pos q').2 == (pos q).2) = false := by
          rw [Bool.eq_false_iff]; intro h
          simp only [Bool.and_eq_true, beq_iff_eq] at h
          have := hi q (by simp) q' (by simp [hq']) (Prod.ext h.1.symm h.2.symm)
          exact hn.1 (this ▸ hq')
        rw [Frame.pixel_toggle, this, Bool.xor_false]
      rw [e, tail, hon, Bool.true_and, Bool.or_assoc]
    · simp [plotAt, hon]

theorem wrapPos_inj (x0 y0 : Byte) {n : Nat} (hn : n ≤ 32) :
    ∀ q ∈ positions 0 n, ∀ q' ∈ positions 0 n, wrapPos x0 y0 q = wrapPos x0 y0 q' → q = q' := by
  intro q hq q' hq' h
  rw [mem_positions] at hq hq'
  simp only [wrapPos, Prod.mk.injEq, Fin.ext_iff, Fin.val_ofNat] at h
  exact Prod.ext (by omega) (by omega)

theorem spriteCovers_eq (x0 y0 : Byte) (bs : List Byte) (x : Fin 64) (y : Fin 32) :
    spriteCovers x0 y0 bs x y = (positions 0 bs.length).any fun q =>
      (bs.getD (q.1 - 0) 0).getLsbD (7 - q.2) &&
        (x == (wrapPos x0 y0 q).1 && y == (wrapPos x0 y0 q).2) := by
  rw [Bool.eq_iff_iff]
  simp only [spriteCovers, spriteBitOn, List.any_eq_true, List.mem_range, mem_positions, wrapPos,
    Bool.and_eq_true, beq_iff_eq, Fin.ext_iff, Fin.val_ofNat, Nat.sub_zero]
  constructor
  · rintro ⟨r, hr, c, hc, h⟩; exact ⟨(r, c), ⟨by simp, by simpa using hr, hc⟩, h⟩
  · rintro ⟨q, ⟨_, hr, hc⟩, h⟩; exact ⟨q.1, by simpa using hr, q.2, hc, h⟩

/-- `draw_sprite` under `wrap`: every pixel XOR whether the sprite covers it (R121). -/
theorem pixel_drawSprite (fb : Frame) (x0 y0 : Byte) (bs : List Byte) (h : bs.length ≤ 32) (x : Fin 64)
    (y : Fin 32) :
    (drawSprite .wrap fb x0 y0 bs).1.pixel x y = (fb.pixel x y ^^ spriteCovers x0 y0 bs x y) := by
  rw [drawSprite, plotRows_eq_foldl, pixel_foldl_plotAt _ _ _ (nodup_positions _ _) (wrapPos_inj x0 y0 h),
    spriteCovers_eq]

/-- `draw_sprite` under `wrap`: the collision is whether a covered pixel was set (R121). -/
theorem hit_drawSprite (fb : Frame) (x0 y0 : Byte) (bs : List Byte) (h : bs.length ≤ 32) :
    (drawSprite .wrap fb x0 y0 bs).2 = true ↔
      ∃ x y, spriteCovers x0 y0 bs x y = true ∧ fb.pixel x y = true := by
  rw [drawSprite, plotRows_eq_foldl, hit_foldl_plotAt _ _ _ (nodup_positions _ _) (wrapPos_inj x0 y0 h)]
  simp only [spriteCovers_eq, Bool.false_or, List.any_eq_true, Bool.and_eq_true, beq_iff_eq]
  constructor
  · rintro ⟨q, hq, hon, hp⟩; exact ⟨_, _, ⟨q, hq, hon, rfl, rfl⟩, hp⟩
  · rintro ⟨x, y, ⟨q, hq, hon, rfl, rfl⟩, hp⟩; exact ⟨q, hq, hon, hp⟩

theorem length_spriteBytes (s : State) (n : Nibble) : (s.spriteBytes n).length = n.toNat := by
  simp [State.spriteBytes, Memory.readBytes]

end Sys2Proof.Machine
end

