-- ==== Sys2Proof/Laws/Memory.lean ====
section
/-!
SUPPORT. The laws of memory: a read after a write, the canonical form kept by every operation, and what
the byte-list operations and a load do.
-/

namespace Sys2Proof.Machine

variable {m : Memory} {a b : Nat} {v : Byte}

theorem Memory.read_cons (c : Host.Cell) (m : Memory) (a : Nat) :
    Memory.read (c :: m) a = if c.1 = a then c.2 else m.read a := rfl

@[simp] theorem Memory.read_nil (a : Nat) : Memory.read [] a = Memory.unlisted a := rfl

/-- An address that no cell holds reads as unlisted. -/
theorem Memory.read_of_not_listed (h : ∀ c ∈ m, c.1 ≠ a) : m.read a = Memory.unlisted a := by
  induction m with
  | nil => rfl
  | cons c m ih =>
    rw [Memory.read_cons, if_neg (h c (by simp))]
    exact ih fun d hd => h d (by simp [hd])

theorem Memory.read_put (m : Memory) (a b : Nat) (v : Byte)
    (hm : m.Pairwise (fun c d => c.1 < d.1)) :
    (Memory.put a v m).read b = if a = b then v else m.read b := by
  induction m with
  | nil => simp [Memory.put, Memory.read_cons]
  | cons c m ih =>
    rw [List.pairwise_cons] at hm
    unfold Memory.put
    split
    · rw [Memory.read_cons]
    · split
      · next _ h => subst h; simp only [Memory.read_cons]; split <;> simp
      · next h1 h2 =>
        simp only [Memory.read_cons, ih hm.2]
        by_cases hc : c.1 = b
        · rw [if_pos hc, if_pos hc, if_neg (by omega)]
        · rw [if_neg hc, if_neg hc]

theorem Memory.read_drop (m : Memory) (a b : Nat) :
    (Memory.drop a m).read b = if a = b then Memory.unlisted b else m.read b := by
  induction m with
  | nil => simp [Memory.drop]
  | cons c m ih =>
    simp only [Memory.drop] at ih ⊢
    by_cases hc : c.1 = a
    · simp only [List.filter_cons, hc, ne_eq, not_true_eq_false, decide_false, Bool.false_eq_true,
        if_false, ih, Memory.read_cons]
      split <;> simp_all
    · simp only [List.filter_cons, ne_eq, hc, not_false_eq_true, decide_true, if_true,
        Memory.read_cons, ih]
      by_cases h : c.1 = b
      · rw [if_pos h, if_pos h, if_neg (by omega)]
      · rw [if_neg h, if_neg h]

/-- A read after a write: the value written at the address, the old value elsewhere (R33, R40). -/
theorem Memory.read_write (m : Memory) (a b : Nat) (v : Byte) (hm : m.wf) :
    (m.write a v).read b = if a = b then v else m.read b := by
  unfold Memory.write
  split
  · next h => rw [Memory.read_drop]; split <;> simp_all
  · exact Memory.read_put m a b v hm.1

theorem Memory.mem_put {c : Host.Cell} (h : c ∈ Memory.put a v m) : c = (a, v) ∨ c ∈ m := by
  induction m with
  | nil => simpa [Memory.put] using h
  | cons d m ih =>
    unfold Memory.put at h
    split at h
    · simpa using h
    · split at h
      · simp only [List.mem_cons] at h ⊢; tauto
      · simp only [List.mem_cons] at h ⊢
        rcases h with h | h
        · tauto
        · rcases ih h with h | h <;> tauto

theorem Memory.pairwise_put (hm : m.Pairwise (fun c d => c.1 < d.1)) :
    (Memory.put a v m).Pairwise (fun c d => c.1 < d.1) := by
  induction m with
  | nil => simp [Memory.put]
  | cons d m ih =>
    rw [List.pairwise_cons] at hm
    unfold Memory.put
    split
    · next h =>
      rw [List.pairwise_cons, List.pairwise_cons]
      refine ⟨fun c hc => ?_, hm⟩
      rcases List.mem_cons.1 hc with rfl | hc
      · exact h
      · exact lt_trans h (hm.1 c hc)
    · split
      · next h => subst h; rw [List.pairwise_cons]; exact ⟨fun c hc => hm.1 c hc, hm.2⟩
      · rw [List.pairwise_cons]
        refine ⟨fun c hc => ?_, ih hm.2⟩
        rcases Memory.mem_put hc with rfl | hc
        · show d.1 < a; omega
        · exact hm.1 c hc

/-- A write inside the address space keeps the canonical form. -/
theorem Memory.wf_write (hm : m.wf) (ha : a < 4096) (v : Byte) : (m.write a v).wf := by
  unfold Memory.write
  split
  · exact ⟨hm.1.filter _, fun c hc => hm.2 c (List.mem_of_mem_filter hc)⟩
  · next h =>
    refine ⟨Memory.pairwise_put hm.1, fun c hc => ?_⟩
    rcases Memory.mem_put hc with rfl | hc
    · exact ⟨ha, h⟩
    · exact hm.2 c hc

theorem Memory.wf_writeBytes (bs : List Byte) (hm : m.wf) (ha : a + bs.length ≤ 4096) :
    (m.writeBytes a bs).wf := by
  induction bs generalizing m a with
  | nil => exact hm
  | cons b bs ih =>
    simp only [List.length_cons] at ha
    exact ih (Memory.wf_write hm (by omega) b) (by omega)

/-- What a list of bytes written at `a` leaves at an address: the byte of the list that falls on it, else
the old value (R35). -/
theorem Memory.read_writeBytes (bs : List Byte) (hm : m.wf) (ha : a + bs.length ≤ 4096) (b : Nat) :
    (m.writeBytes a bs).read b =
      if a ≤ b ∧ b < a + bs.length then bs.getD (b - a) 0 else m.read b := by
  induction bs generalizing m a with
  | nil => simp [Memory.writeBytes]
  | cons c bs ih =>
    simp only [List.length_cons] at ha ⊢
    rw [Memory.writeBytes, ih (Memory.wf_write hm (by omega) c) (by omega), Memory.read_write m a b c hm]
    by_cases h1 : a + 1 ≤ b ∧ b < a + 1 + bs.length
    · have e : b - a = (b - (a + 1)) + 1 := by omega
      rw [if_pos h1, if_pos (by omega), e, List.getD_cons_succ]
    · rw [if_neg h1]
      by_cases h2 : a = b
      · subst h2; simp
      · rw [if_neg h2, if_neg (by omega)]

@[simp] theorem Memory.length_readBytes (m : Memory) (a n : Nat) : (m.readBytes a n).length = n := by
  simp [Memory.readBytes]

theorem Memory.getElem_readBytes (m : Memory) (a n k : Nat) (h : k < (m.readBytes a n).length) :
    (m.readBytes a n)[k] = m.read (a + k) := by
  simp [Memory.readBytes]

/-- From 0x200 on, memory resets to zero: the font lies below (R31, R32). -/
theorem Memory.unlisted_high (h : 0x200 ≤ a) : Memory.unlisted a = 0 := by
  have : ¬ (Config.fontBase ≤ a ∧ a < Config.fontBase + 80) := by simp only [Config.fontBase]; omega
  simp [Memory.unlisted, Config.resetByte, this]

theorem Memory.mem_imageCells {bs : List Byte} {c : Host.Cell} (h : c ∈ Memory.imageCells a bs) :
    a ≤ c.1 ∧ c.1 < a + bs.length ∧ c.2 ≠ Memory.unlisted c.1 := by
  induction bs generalizing a with
  | nil => simp [Memory.imageCells] at h
  | cons b bs ih =>
    simp only [List.length_cons]
    unfold Memory.imageCells at h
    split at h
    · have := ih h; refine ⟨by omega, by omega, this.2.2⟩
    · next hb =>
      rcases List.mem_cons.1 h with rfl | h
      · exact ⟨le_refl a, by simp, hb⟩
      · have := ih h; refine ⟨by omega, by omega, this.2.2⟩

theorem Memory.pairwise_imageCells (a : Nat) (bs : List Byte) :
    (Memory.imageCells a bs).Pairwise (fun c d => c.1 < d.1) := by
  induction bs generalizing a with
  | nil => simp [Memory.imageCells]
  | cons b bs ih =>
    unfold Memory.imageCells
    split
    · exact ih _
    · rw [List.pairwise_cons]
      refine ⟨fun c hc => ?_, ih _⟩
      have := Memory.mem_imageCells hc
      show a < c.1; omega

theorem Memory.read_imageCells (a b : Nat) (bs : List Byte) :
    (Memory.imageCells a bs).read b =
      if a ≤ b ∧ b < a + bs.length then bs.getD (b - a) 0 else Memory.unlisted b := by
  induction bs generalizing a with
  | nil => simp [Memory.imageCells]
  | cons c bs ih =>
    simp only [List.length_cons]
    have step : (Memory.imageCells a (c :: bs)).read b =
        if a = b then c else (Memory.imageCells (a + 1) bs).read b := by
      rw [Memory.imageCells]
      split
      · next h =>
        split
        · next hab => subst hab; rw [ih, if_neg (by omega)]; exact h.symm
        · rfl
      · rw [Memory.read_cons]
    rw [step, ih]
    by_cases h1 : a + 1 ≤ b ∧ b < a + 1 + bs.length
    · have e : b - a = (b - (a + 1)) + 1 := by omega
      rw [if_neg (by omega), if_pos h1, if_pos (by omega), e, List.getD_cons_succ]
    · by_cases h2 : a = b
      · subst h2; simp
      · rw [if_neg h2, if_neg h1, if_neg (by omega)]

theorem Memory.read_append (m n : Memory) (b : Nat) :
    Memory.read (m ++ n) b = if ∃ c ∈ m, c.1 = b then m.read b else n.read b := by
  induction m with
  | nil => simp
  | cons c m ih =>
    simp only [List.cons_append, Memory.read_cons, ih]
    by_cases h : c.1 = b
    · rw [if_pos h, if_pos h, if_pos ⟨c, by simp, h⟩]
    · rw [if_neg h, if_neg h]
      have : (∃ d ∈ c :: m, d.1 = b) ↔ ∃ d ∈ m, d.1 = b := by simp [h]
      simp only [this]

theorem Memory.read_filter_lt (m : Memory) (n b : Nat) (h : b < n) :
    Memory.read (m.filter (fun c => c.1 < n)) b = m.read b := by
  induction m with
  | nil => rfl
  | cons c m ih =>
    by_cases hc : c.1 < n
    · simp [hc, Memory.read_cons, ih]
    · simp only [List.filter_cons, hc, decide_false, Bool.false_eq_true, if_false, ih, Memory.read_cons]
      rw [if_neg (by omega)]

/-- What a load leaves at an address (R181): below 0x200 the old byte, then the image, then zero. -/
theorem Memory.read_load (m : Memory) (image : List Byte) (b : Nat) :
    (m.load image).read b =
      if b < 0x200 then m.read b
      else if b < 0x200 + image.length then image.getD (b - 0x200) 0 else 0 := by
  rw [Memory.load, Memory.read_append, Memory.read_imageCells]
  by_cases hb : b < 0x200
  · rw [if_pos hb]
    split
    · exact Memory.read_filter_lt m _ b hb
    · next h =>
      rw [if_neg (by simp; omega)]
      rw [← Memory.read_filter_lt m Config.progBase b hb]
      refine (Memory.read_of_not_listed fun c hc he => h ⟨c, hc, he⟩).symm
  · rw [if_neg hb, if_neg]
    · by_cases h2 : b < 0x200 + image.length
      · rw [if_pos h2, if_pos (by simp; omega)]
      · rw [if_neg h2, if_neg (by simp; omega)]; exact Memory.unlisted_high (by omega)
    · rintro ⟨c, hc, rfl⟩
      have := (List.mem_filter.1 hc).2
      simp at this; omega

theorem Memory.wf_load {image : List Byte} (hm : m.wf) (hi : image.length ≤ 3584) :
    (m.load image).wf := by
  refine ⟨?_, fun c hc => ?_⟩
  · rw [Memory.load, List.pairwise_append]
    refine ⟨hm.1.filter _, Memory.pairwise_imageCells _ _, fun c hc d hd => ?_⟩
    have h1 := (List.mem_filter.1 hc).2
    have h2 := Memory.mem_imageCells hd
    simp at h1 h2; omega
  · rcases List.mem_append.1 hc with hc | hc
    · exact hm.2 c (List.mem_of_mem_filter hc)
    · have h2 := Memory.mem_imageCells hc
      exact ⟨by simp at h2 ⊢; omega, h2.2.2⟩

theorem State.reset_mem_wf : State.reset.mem.wf := by decide

/-! ### The bounds check -/

theorem outOfRange_eq_none {n : Nat} : outOfRange a n = none ↔ n = 0 ∨ a + n - 1 < 4096 := by
  unfold outOfRange; split <;> simp_all

theorem outOfRange_of_le {n : Nat} (h : a + n ≤ 4096) : outOfRange a n = none := by
  rw [outOfRange_eq_none]; omega

theorem outOfRange_of_gt {n : Nat} (hn : 0 < n) (h : 4096 < a + n) :
    outOfRange a n = some (max a 4096) := by
  unfold outOfRange; rw [if_neg (by simp; omega)]

/-- Everything the checked access can do (R38): the whole effect, or the error and no effect. -/
theorem State.checked_cases (s : State) (i : Instr) (n : Nat) (t : State) :
    (outOfRange s.i.toNat n = none ∧ s.checked i n t = t) ∨
      (0 < n ∧ 4096 < s.i.toNat + n ∧ s.checked i n t =
        s.raise .memoryBoundsError (encode i) (BitVec.ofNat 16 (max s.i.toNat 4096))) := by
  unfold State.checked
  by_cases h : n = 0 ∨ s.i.toNat + n - 1 < 4096
  · rw [outOfRange_eq_none.2 h]; exact .inl ⟨rfl, rfl⟩
  · rw [outOfRange_of_gt (by omega) (by omega)]; exact .inr ⟨by omega, by omega, rfl⟩

/-- A checked access in range has its effect. -/
theorem State.checked_of_inRange {s : State} {i : Instr} {n : Nat} {t : State}
    (h : n = 0 ∨ s.i.toNat + n - 1 < 4096) : s.checked i n t = t := by
  rcases s.checked_cases i n t with h1 | h1
  · exact h1.2
  · omega

/-- A checked access out of range takes the error. -/
theorem State.checked_of_outOfRange {s : State} {i : Instr} {n : Nat} {t : State} (h0 : 0 < n)
    (h : 4096 ≤ s.i.toNat + n - 1) : s.checked i n t =
      s.raise .memoryBoundsError (encode i) (BitVec.ofNat 16 (max s.i.toNat 4096)) := by
  rcases s.checked_cases i n t with h1 | h1
  · have := outOfRange_eq_none.1 h1.1; omega
  · exact h1.2.2

/-- Everything a fetch can answer (R33, R70). -/
theorem State.fetch_cases (s : State) :
    (s.pc.toNat < 4095 ∧ s.fetch = .ok (s.mem.word s.pc.toNat)) ∨
      (4095 ≤ s.pc.toNat ∧ s.fetch = .error (max s.pc.toNat 4096)) := by
  unfold State.fetch
  by_cases h : s.pc.toNat < 4095
  · rw [outOfRange_of_le (by omega)]; exact .inl ⟨h, rfl⟩
  · rw [outOfRange_of_gt (by omega) (by omega)]; exact .inr ⟨by omega, rfl⟩

end Sys2Proof.Machine
end

