-- ==== Sys2Proof/Laws/Frame.lean ====
section
/-!
SUPPORT. Frames: what each shared operation leaves unchanged, as `OnlyChanges` (Safety), and a run of the
machine unrolled by one step.
-/

namespace Sys2Proof.Machine

variable {s t u : State} {P Q : Part → Prop}

theorem OnlyChanges.rfl : OnlyChanges s s P := fun p _ => by cases p <;> exact Eq.refl _

/-- A frame may be weakened: fewer parts changed, more allowed. -/
theorem OnlyChanges.mono (h : OnlyChanges s t P) (hpq : ∀ p, P p → Q p) : OnlyChanges s t Q :=
  fun p hp => h p fun hq => hp (hpq p hq)

/-- Frames compose along a run. -/
theorem OnlyChanges.trans (h : OnlyChanges s t P) (h' : OnlyChanges t u P) : OnlyChanges s u P := by
  intro p hp
  have a := h p hp
  have b := h' p hp
  cases p <;> exact Eq.trans b a

/-- Taking an error changes ERR alone (R152 to R154). -/
theorem onlyChanges_raise (s : State) (k : ErrKind) (w a : Word) :
    OnlyChanges s (s.raise k w a) fun p => p = .err := by
  intro p hp
  cases p
  case err => exact absurd (Eq.refl _) hp
  all_goals exact Eq.refl _

theorem onlyChanges_advance (s : State) : OnlyChanges s s.advance fun p => p = .pc := by
  intro p hp
  cases p
  case pc => exact absurd (Eq.refl _) hp
  all_goals exact Eq.refl _

theorem onlyChanges_skipIf (s : State) (c : Bool) : OnlyChanges s (s.skipIf c) fun p => p = .pc := by
  intro p hp
  cases p
  case pc => exact absurd (Eq.refl _) hp
  all_goals exact Eq.refl _

theorem onlyChanges_jump (s : State) (a : Word) : OnlyChanges s (s.jump a) fun p => p = .pc := by
  intro p hp
  cases p
  case pc => exact absurd (Eq.refl _) hp
  all_goals exact Eq.refl _

/-- A register write changes that register alone (R10). -/
theorem onlyChanges_setV (s : State) (x : RegIdx) (b : Byte) :
    OnlyChanges s (s.setV x b) fun p => p = .reg x := by
  intro p hp
  cases p
  case reg r =>
    show (s.setV x b).getV r = s.getV r
    rw [State.getV_setV, if_neg]
    exact fun h => hp (by rw [h])
  all_goals exact Eq.refl _

/-- A flag writer changes its destination and VF (R102). -/
theorem onlyChanges_setResultFlag (s : State) (x : RegIdx) (b : Byte) (c : Bool) :
    OnlyChanges s (s.setResultFlag x b c) fun p => p = .reg x ∨ p = .reg 15 :=
  ((onlyChanges_setV s x b).mono fun _ h => .inl h).trans
    ((onlyChanges_setV _ 15 (flagByte c)).mono fun _ h => .inr h)

/-- A key edge changes that key alone (R164). -/
theorem onlyChanges_setKey (s : State) (k : KeyIdx) (b : Bool) :
    OnlyChanges s (s.setKey k b) fun p => p = .key k := by
  intro p hp
  cases p
  case key r =>
    show (s.setKey k b).key r = s.key r
    rw [State.key_setKey, if_neg]
    exact fun h => hp (by rw [h])
  all_goals exact Eq.refl _

/-- A list of bytes written at `a` changes those bytes alone (R35). -/
theorem onlyChanges_writeBytes (s : State) (a : Nat) (bs : List Byte) (hm : s.mem.wf)
    (ha : a + bs.length ≤ 4096) :
    OnlyChanges s { s with mem := s.mem.writeBytes a bs } fun p => p.InBytes a bs.length := by
  intro p hp
  cases p
  case byte b =>
    show (s.mem.writeBytes a bs).read b = s.mem.read b
    rw [Memory.read_writeBytes bs hm ha, if_neg]
    exact fun h => hp ⟨b - a, by omega, by rw [Nat.add_sub_cancel' h.1]⟩
  all_goals exact Eq.refl _

/-- Loading `V[0]` to `V[X]` changes those registers alone (R115). -/
theorem onlyChanges_regsLoaded (s : State) (x : RegIdx) (a : Nat) :
    OnlyChanges s { s with v := s.regsLoaded x a } fun p => p.InRegs x := by
  intro p hp
  cases p
  case reg r =>
    show (s.regsLoaded x a)[r.val] = s.getV r
    rw [State.getElem_regsLoaded, if_neg]
    exact fun h => hp ⟨r, h, Eq.refl _⟩
  all_goals exact Eq.refl _

/-- A new display changes pixels alone (R16). -/
theorem onlyChanges_fb (s : State) (f : Frame) : OnlyChanges s { s with fb := f } Part.IsPixel := by
  intro p hp
  cases p
  case pixel x y => exact absurd ⟨x, y, Eq.refl _⟩ hp
  all_goals exact Eq.refl _

/-- One step and then the rest of a run. -/
theorem core_run_succ {n : Nat} (h : step s = .next t) : core.run (n + 1) s = core.run n t := by
  have h' : core.step s = .next t := h
  simp only [Host.Core.run, h']

end Sys2Proof.Machine
end

