-- ==== Sys2Proof/Laws/Operands.lean ====
section
/-!
SUPPORT. What the operand forms and the flag computations are as numbers: one lemma per definition of
Machine/Operands and Machine/Flags, and the timers' countdown.
-/

namespace Sys2Proof.Machine

@[simp] theorem addr16_toNat (nnn : Addr) : (addr16 nnn).toNat = nnn.toNat := by
  have := nnn.isLt
  rw [addr16, BitVec.toNat_setWidth]; omega

/-- The target of `JP V0, addr` never overflows 16 bits (R79). -/
@[simp] theorem State.offsetTarget_toNat (s : State) (nnn : Addr) :
    (s.offsetTarget nnn).toNat = nnn.toNat + (s.getV 0).toNat := by
  have := nnn.isLt
  have := (s.getV 0).isLt
  rw [State.offsetTarget, BitVec.toNat_add, addr16_toNat, BitVec.toNat_setWidth]; omega

@[simp] theorem State.lowNibble_val (s : State) (x : RegIdx) :
    (s.lowNibble x).val = (s.getV x).toNat % 16 := by
  show ((s.getV x).extractLsb' 0 4).toNat = _
  simp [BitVec.extractLsb'_toNat]

@[simp] theorem glyphAddr_toNat (d : Fin 16) : (glyphAddr d).toNat = Config.fontBase + 5 * d.val := by
  rw [glyphAddr, BitVec.toNat_ofNat, Config.fontBase]; omega

@[simp] theorem length_bcdDigits (b : Byte) : (bcdDigits b).length = 3 := rfl

/-- The three digits as numbers (R113). -/
theorem bcdDigits_toNat (b : Byte) :
    ((bcdDigits b).getD 0 0).toNat = b.toNat / 100 ∧ ((bcdDigits b).getD 1 0).toNat = b.toNat / 10 % 10 ∧
      ((bcdDigits b).getD 2 0).toNat = b.toNat % 10 := by
  have := b.isLt
  simp only [bcdDigits, List.getD_cons_zero, List.getD_cons_succ, BitVec.toNat_ofNat]
  omega

theorem carryOut_eq (a b : Byte) : carryOut a b = decide (a.toNat + b.toNat > 255) := rfl

theorem noBorrow_eq (a b : Byte) : noBorrow a b = decide (a.toNat ≥ b.toNat) := rfl

/-- The bit a right shift loses is the remainder modulo 2 (R99). -/
theorem outRight_eq (b : Byte) : outRight b = decide (b.toNat % 2 = 1) := by
  revert b; decide

/-- The bit a left shift loses says whether the value is at least 128 (R101). -/
theorem outLeft_eq (b : Byte) : outLeft b = decide (128 ≤ b.toNat) := by
  revert b; decide

theorem flagByte_toNat (b : Bool) : (flagByte b).toNat = if b then 1 else 0 := by cases b <;> rfl

theorem flagByte_eq (b : Bool) : flagByte b = 0 ∨ flagByte b = 1 := by cases b <;> decide

/-- One decrement, floored at zero (R161). -/
@[simp] theorem countDown_toNat (b : Byte) : (countDown b).toNat = b.toNat - 1 := by
  revert b; decide

end Sys2Proof.Machine
end

