-- ==== Sys2Proof/Laws/PerInstr.lean ====
section
/-!
SUPPORT. Per instruction: the word an instruction encodes to matches the row of the opcode map (30_encoding
R54, R55) that the instruction belongs to.
-/

namespace Sys2Proof.Laws.RowOfEncoding

/-- The encoded word matches the instruction's row: `w & mask = match`. -/
def Statement (i : Instr) : Prop := encode i &&& i.row.mask = i.row.pattern

theorem nibble_and_ones (b : Nibble) : b &&& 0xF#4 = b := BitVec.and_allOnes (x := b)

theorem byte_and_ones (b : Byte) : b &&& 0xFF#8 = b := BitVec.and_allOnes (x := b)

theorem formatA_masked (op : Nibble) (nnn : Addr) : formatA op nnn &&& 0xF000#16 = op ++ 0#12 := by
  rw [formatA, show 0xF000#16 = 0xF#4 ++ 0#12 by decide, BitVec.and_append]
  simp [nibble_and_ones]

theorem formatI_masked (op : Nibble) (x : RegIdx) (nn : Byte) :
    formatI op x nn &&& 0xF000#16 = (op ++ 0#4) ++ 0#8 := by
  rw [formatI, show 0xF000#16 = (0xF#4 ++ 0#4) ++ 0#8 by decide, BitVec.and_append, BitVec.and_append]
  simp [nibble_and_ones]

theorem formatS_masked (op : Nibble) (x : RegIdx) (nn : Byte) :
    formatI op x nn &&& 0xF0FF#16 = (op ++ 0#4) ++ nn := by
  rw [formatI, show 0xF0FF#16 = (0xF#4 ++ 0#4) ++ 0xFF#8 by decide, BitVec.and_append, BitVec.and_append]
  simp [nibble_and_ones, byte_and_ones]

theorem formatR_masked (op : Nibble) (x y : RegIdx) (n : Nibble) :
    formatR op x y n &&& 0xF00F#16 = (op ++ 0#4) ++ (0#4 ++ n) := by
  rw [formatR, show 0xF00F#16 = (0xF#4 ++ 0#4) ++ (0#4 ++ 0xF#4) by decide, BitVec.and_append,
    BitVec.and_append, BitVec.and_append]
  simp [nibble_and_ones]

theorem formatD_masked (op : Nibble) (x y : RegIdx) (n : Nibble) :
    formatR op x y n &&& 0xF000#16 = (op ++ 0#4) ++ (0#4 ++ 0#4) := by
  rw [formatR, show 0xF000#16 = (0xF#4 ++ 0#4) ++ (0#4 ++ 0#4) by decide, BitVec.and_append,
    BitVec.and_append, BitVec.and_append, nibble_and_ones, BitVec.and_zero, BitVec.and_zero, BitVec.and_zero]

theorem cls : Statement .cls := rfl

theorem ret : Statement .ret := rfl

theorem jp (nnn : Addr) : Statement (.jp nnn) := (formatA_masked _ nnn).trans rfl

theorem call (nnn : Addr) : Statement (.call nnn) := (formatA_masked _ nnn).trans rfl

theorem seImm (x : RegIdx) (nn : Byte) : Statement (.seImm x nn) := (formatI_masked _ x nn).trans rfl

theorem sneImm (x : RegIdx) (nn : Byte) : Statement (.sneImm x nn) := (formatI_masked _ x nn).trans rfl

theorem seReg (x y : RegIdx) : Statement (.seReg x y) := (formatR_masked _ x y _).trans rfl

theorem sneReg (x y : RegIdx) : Statement (.sneReg x y) := (formatR_masked _ x y _).trans rfl

theorem ldImm (x : RegIdx) (nn : Byte) : Statement (.ldImm x nn) := (formatI_masked _ x nn).trans rfl

theorem addImm (x : RegIdx) (nn : Byte) : Statement (.addImm x nn) := (formatI_masked _ x nn).trans rfl

theorem ldReg (x y : RegIdx) : Statement (.ldReg x y) := (formatR_masked _ x y _).trans rfl

theorem orReg (x y : RegIdx) : Statement (.orReg x y) := (formatR_masked _ x y _).trans rfl

theorem andReg (x y : RegIdx) : Statement (.andReg x y) := (formatR_masked _ x y _).trans rfl

theorem xorReg (x y : RegIdx) : Statement (.xorReg x y) := (formatR_masked _ x y _).trans rfl

theorem addReg (x y : RegIdx) : Statement (.addReg x y) := (formatR_masked _ x y _).trans rfl

theorem subReg (x y : RegIdx) : Statement (.subReg x y) := (formatR_masked _ x y _).trans rfl

theorem shr (x y : RegIdx) : Statement (.shr x y) := (formatR_masked _ x y _).trans rfl

theorem subn (x y : RegIdx) : Statement (.subn x y) := (formatR_masked _ x y _).trans rfl

theorem shl (x y : RegIdx) : Statement (.shl x y) := (formatR_masked _ x y _).trans rfl

theorem ldI (nnn : Addr) : Statement (.ldI nnn) := (formatA_masked _ nnn).trans rfl

theorem jpV0 (nnn : Addr) : Statement (.jpV0 nnn) := (formatA_masked _ nnn).trans rfl

theorem rnd (x : RegIdx) (nn : Byte) : Statement (.rnd x nn) := (formatI_masked _ x nn).trans rfl

theorem drw (x y : RegIdx) (n : Nibble) : Statement (.drw x y n) := (formatD_masked _ x y n).trans rfl

theorem skp (x : RegIdx) : Statement (.skp x) := (formatS_masked _ x _).trans rfl

theorem sknp (x : RegIdx) : Statement (.sknp x) := (formatS_masked _ x _).trans rfl

theorem ldVxDt (x : RegIdx) : Statement (.ldVxDt x) := (formatS_masked _ x _).trans rfl

theorem ldVxK (x : RegIdx) : Statement (.ldVxK x) := (formatS_masked _ x _).trans rfl

theorem ldDtVx (x : RegIdx) : Statement (.ldDtVx x) := (formatS_masked _ x _).trans rfl

theorem ldStVx (x : RegIdx) : Statement (.ldStVx x) := (formatS_masked _ x _).trans rfl

theorem addIVx (x : RegIdx) : Statement (.addIVx x) := (formatS_masked _ x _).trans rfl

theorem ldFVx (x : RegIdx) : Statement (.ldFVx x) := (formatS_masked _ x _).trans rfl

theorem ldBVx (x : RegIdx) : Statement (.ldBVx x) := (formatS_masked _ x _).trans rfl

theorem ldMemVx (x : RegIdx) : Statement (.ldMemVx x) := (formatS_masked _ x _).trans rfl

theorem ldVxMem (x : RegIdx) : Statement (.ldVxMem x) := (formatS_masked _ x _).trans rfl

end Sys2Proof.Laws.RowOfEncoding
end

