-- ==== Sys2Proof/Laws/Step.lean ====
section
/-!
SUPPORT. What an instruction, a CPU step and a step of the machine can answer, said once: provers split on
these lemmas instead of unfolding `exec`, `cpuStep` and `cycle`.
-/

namespace Sys2Proof.Machine

/-- Every instruction answers a next state: its effect, or an error taken. -/
theorem exec_answers (i : Instr) (s : State) : ∃ t, exec i s = .next t := by
  cases i
  case ret => simp only [exec, execRet]; split <;> exact ⟨_, rfl⟩
  case call => simp only [exec, execCall]; split <;> exact ⟨_, rfl⟩
  all_goals exact ⟨_, rfl⟩

/-- Everything `RET` can do (R72). -/
theorem execRet_cases (s : State) :
    (s.stack = [] ∧ exec .ret s = .next (s.raise .stackError (encode .ret) 0)) ∨
    (∃ a rest, s.stack = a :: rest ∧ exec .ret s = .next ({ s with stack := rest }.jump a)) := by
  simp only [exec, execRet]
  cases s.stack with
  | nil => exact .inl ⟨rfl, rfl⟩
  | cons a rest => exact .inr ⟨a, rest, rfl, rfl⟩

/-- Everything `CALL addr` can do (R74). -/
theorem execCall_cases (nnn : Addr) (s : State) :
    (s.sp < 16 ∧ exec (.call nnn) s =
      .next ({ s with stack := (s.pc + 2) :: s.stack }.jump (addr16 nnn))) ∨
    (16 ≤ s.sp ∧ exec (.call nnn) s = .next (s.raise .stackError (encode (.call nnn)) 0)) := by
  by_cases h : s.sp < 16
  · exact .inl ⟨h, by simp [exec, execCall, h]⟩
  · exact .inr ⟨by omega, by simp [exec, execCall, h]⟩

/-- Everything `LD B, Vx` can do (R113). -/
theorem execLdBVx_cases (x : RegIdx) (s : State) :
    (s.i.toNat + 2 < 4096 ∧ exec (.ldBVx x) s =
      .next { s with mem := s.mem.writeBytes s.i.toNat (bcdDigits (s.getV x)) }.advance) ∨
    (4096 ≤ s.i.toNat + 2 ∧ exec (.ldBVx x) s =
      .next (s.raise .memoryBoundsError (encode (.ldBVx x)) (BitVec.ofNat 16 (max s.i.toNat 4096)))) := by
  by_cases h : s.i.toNat + 2 < 4096
  · exact .inl ⟨h, congrArg Host.Outcome.next (State.checked_of_inRange (by omega))⟩
  · exact .inr ⟨by omega, congrArg Host.Outcome.next (State.checked_of_outOfRange (by omega) (by omega))⟩

/-- Everything `LD [I], Vx` can do (R114). -/
theorem execLdMemVx_cases (x : RegIdx) (s : State) :
    (s.i.toNat + x.val < 4096 ∧ exec (.ldMemVx x) s =
      .next { s with mem := s.mem.writeBytes s.i.toNat (s.regsUpTo x) }.advance) ∨
    (4096 ≤ s.i.toNat + x.val ∧ exec (.ldMemVx x) s =
      .next (s.raise .memoryBoundsError (encode (.ldMemVx x)) (BitVec.ofNat 16 (max s.i.toNat 4096)))) := by
  by_cases h : s.i.toNat + x.val < 4096
  · exact .inl ⟨h, congrArg Host.Outcome.next (State.checked_of_inRange (by omega))⟩
  · exact .inr ⟨by omega, congrArg Host.Outcome.next (State.checked_of_outOfRange (by omega) (by omega))⟩

/-- Everything `LD Vx, [I]` can do (R115). -/
theorem execLdVxMem_cases (x : RegIdx) (s : State) :
    (s.i.toNat + x.val < 4096 ∧ exec (.ldVxMem x) s =
      .next { s with v := s.regsLoaded x s.i.toNat }.advance) ∨
    (4096 ≤ s.i.toNat + x.val ∧ exec (.ldVxMem x) s =
      .next (s.raise .memoryBoundsError (encode (.ldVxMem x)) (BitVec.ofNat 16 (max s.i.toNat 4096)))) := by
  by_cases h : s.i.toNat + x.val < 4096
  · exact .inl ⟨h, congrArg Host.Outcome.next (State.checked_of_inRange (by omega))⟩
  · exact .inr ⟨by omega, congrArg Host.Outcome.next (State.checked_of_outOfRange (by omega) (by omega))⟩

/-- Everything `DRW Vx, Vy, nibble` can do (R121). -/
theorem execDrw_cases (x y : RegIdx) (n : Nibble) (s : State) :
    ((n.toNat = 0 ∨ s.i.toNat + n.toNat - 1 < 4096) ∧ exec (.drw x y n) s =
      .next (s.drawn x y n).advance) ∨
    (0 < n.toNat ∧ 4096 ≤ s.i.toNat + n.toNat - 1 ∧ exec (.drw x y n) s =
      .next (s.raise .memoryBoundsError (encode (.drw x y n)) (BitVec.ofNat 16 (max s.i.toNat 4096)))) := by
  by_cases h : n.toNat = 0 ∨ s.i.toNat + n.toNat - 1 < 4096
  · exact .inl ⟨h, congrArg Host.Outcome.next (State.checked_of_inRange h)⟩
  · exact .inr ⟨by omega, by omega,
      congrArg Host.Outcome.next (State.checked_of_outOfRange (by omega) (by omega))⟩

/-- A word that does not decode carries itself as the reason (R56). -/
theorem decodeWord_error {w : Word} {e : DecodeError} (h : decodeWord w = .error e) :
    e = .unknownOpcode w := by
  unfold decodeWord decodeAlu decodeKey decodeMisc at h
  repeat' split at h
  all_goals first | (cases h; done) | (injection h with h; exact h.symm)

/-- Everything one instruction-rate trigger can do (R70, R155, R156, R166). -/
theorem cpuStep_cases (s : State) :
    (s.err.kind ≠ .none ∧ cpuStep s = .next s) ∨
    (s.err.kind = .none ∧ s.wait.isSome = true ∧ cpuStep s = .next s) ∨
    (s.Running ∧ 4095 ≤ s.pc.toNat ∧
      cpuStep s = .next (s.raise .memoryBoundsError 0 (BitVec.ofNat 16 (max s.pc.toNat 4096)))) ∨
    (s.Running ∧ s.pc.toNat < 4095 ∧
      decodeWord (s.mem.word s.pc.toNat) = .error (.unknownOpcode (s.mem.word s.pc.toNat)) ∧
      cpuStep s = .next (s.raise .unknownOpcode (s.mem.word s.pc.toNat) 0)) ∨
    (s.Running ∧ s.pc.toNat < 4095 ∧
      ∃ i, decodeWord (s.mem.word s.pc.toNat) = .ok i ∧ cpuStep s = exec i s) := by
  by_cases hh : s.halted = true
  · exact .inl ⟨(State.halted_iff s).1 hh, by simp [cpuStep, hh]⟩
  · have hk := (State.not_halted_iff s).1 (by simpa using hh)
    cases hw : s.wait with
    | some x => exact .inr (.inl ⟨hk, by simp, by simp [cpuStep, hh, hw]⟩)
    | none =>
      have e : cpuStep s = fetchDecodeExecute s := by simp [cpuStep, hh, hw]
      rw [e, fetchDecodeExecute]
      rcases s.fetch_cases with ⟨hp, hf⟩ | ⟨hp, hf⟩
      · rw [hf]
        cases hd : decodeWord (s.mem.word s.pc.toNat) with
        | ok i => exact .inr (.inr (.inr (.inr ⟨⟨hk, hw⟩, hp, i, rfl, by simp [hd]⟩)))
        | error er =>
          have := decodeWord_error hd
          subst this
          exact .inr (.inr (.inr (.inl ⟨⟨hk, hw⟩, hp, rfl, by simp [hd]⟩)))
      · rw [hf]; exact .inr (.inr (.inl ⟨⟨hk, hw⟩, hp, rfl⟩))

/-- Everything one step of the machine can do (R4, R174): the next event, or with none left the CPU's
trigger, or the stuck halted core. -/
theorem step_cases (s : State) :
    (∃ e rest, s.inputs = e :: rest ∧ step s = deliver e { s with inputs := rest }) ∨
    (s.inputs = [] ∧ s.err.kind ≠ .none ∧ step s = .fault (.halted s.err.kind)) ∨
    (s.inputs = [] ∧ s.err.kind = .none ∧ step s = cpuStep s) := by
  cases hi : s.inputs with
  | cons e rest => exact .inl ⟨e, rest, rfl, by simp [step, cycle, hi]⟩
  | nil =>
    by_cases hh : s.halted = true
    · exact .inr (.inl ⟨rfl, (State.halted_iff s).1 hh, by simp [step, cycle, hi, hh]⟩)
    · exact .inr (.inr ⟨rfl, (State.not_halted_iff s).1 (by simpa using hh), by simp [step, cycle, hi, hh]⟩)

/-- A property that the CPU step and every other agent keep is kept by every step of the machine. -/
theorem step_preserves {P : State → Prop} (inputs : ∀ s l, P s → P { s with inputs := l })
    (cpu : ∀ s t, P s → cpuStep s = .next t → P t) (tick : ∀ s, P s → P (timerTick s))
    (down : ∀ k s, P s → P (keyDown k s)) (up : ∀ k s, P s → P (keyUp k s))
    (reset : ∀ s, P s → P (hostReset s)) (load : ∀ im s, P s → P (hostLoad im s))
    {s t : State} (hs : P s) (h : step s = .next t) : P t := by
  rcases step_cases s with ⟨e, rest, -, he⟩ | ⟨-, -, he⟩ | ⟨-, -, he⟩ <;> rw [he] at h
  · have hr := inputs s rest hs
    cases e <;> simp only [deliver, Host.Outcome.next.injEq] at h
    · exact cpu _ _ hr h
    all_goals subst h
    · exact tick _ hr
    · exact down _ _ hr
    · exact up _ _ hr
    · exact reset _ hr
    · exact load _ _ hr
  · cases h
  · exact cpu _ _ hs h

end Sys2Proof.Machine
end

