-- ==== Sys2Proof/Laws/Schedule.lean ====
section
/-!
SUPPORT. Unending runs: an event always has a next state, a run unrolls by one event, every finite beginning of a
run is a run of the machine on the list of its events, and fair schedules exist.
-/

namespace Sys2Proof.Machine

/-- A CPU step always has a next state. -/
theorem cpuStep_answers (s : State) : ∃ t, cpuStep s = .next t := by
  rcases cpuStep_cases s with ⟨-, h⟩ | ⟨-, -, h⟩ | ⟨-, -, h⟩ | ⟨-, -, -, h⟩ | ⟨-, -, i, -, h⟩ <;> rw [h]
  case inr.inr.inr.inr => exact exec_answers i s
  all_goals exact ⟨_, rfl⟩

/-- An event always has a next state, on any core. -/
theorem deliver_answers (e : Event) (s : State) : ∃ t, deliver e s = .next t := by
  cases e
  case step => exact cpuStep_answers s
  all_goals exact ⟨_, rfl⟩

theorem feed_eq (e : Event) (s : State) : feed e s = deliver e { s with inputs := [] } := rfl

theorem feed_answers (e : Event) (s : State) : ∃ t, feed e s = .next t := deliver_answers e _

@[simp] theorem runAt_zero (sched : Schedule) (s : State) : runAt sched s 0 = s := rfl

/-- One event of a run. -/
theorem feed_runAt (sched : Schedule) (s : State) (n : Nat) :
    feed (sched n) (runAt sched s n) = .next (runAt sched s (n + 1)) := by
  obtain ⟨t, h⟩ := feed_answers (sched n) (runAt sched s n)
  rw [runAt, h]

/-- The next state of a run, from what its event does. -/
theorem runAt_succ {sched : Schedule} {s t : State} {n : Nat}
    (h : deliver (sched n) { runAt sched s n with inputs := [] } = .next t) : runAt sched s (n + 1) = t :=
  Host.Outcome.next.inj ((feed_runAt sched s n).symm.trans h)

/-! ### No agent looks at the events still to come -/

theorem exec_inputs {i : Instr} {s t : State} (l : List Event) (h : exec i s = .next t) :
    exec i { s with inputs := l } = .next { t with inputs := l } := by
  cases i
  case ret =>
    rcases execRet_cases s with ⟨hs, e⟩ | ⟨a, r, hs, e⟩ <;> rw [e] at h <;> cases h
    · rw [exec, execRet]; simp only [hs, State.raise]
    · rw [exec, execRet]; simp only [hs]; rfl
  case call nnn =>
    rcases execCall_cases nnn s with ⟨hs, e⟩ | ⟨hs, e⟩ <;> rw [e] at h <;> cases h
    · exact if_pos hs
    · exact if_neg (Nat.not_lt.2 hs)
  case drw x y n =>
    simp only [exec, execDrw, State.checked] at h ⊢
    cases ho : outOfRange s.i.toNat n.toNat <;> simp only [ho] at h ⊢ <;> cases h <;> rfl
  case ldBVx x =>
    simp only [exec, execLdBVx, State.checked] at h ⊢
    cases ho : outOfRange s.i.toNat 3 <;> simp only [ho] at h ⊢ <;> cases h <;> rfl
  case ldMemVx x =>
    simp only [exec, execLdMemVx, State.checked] at h ⊢
    cases ho : outOfRange s.i.toNat (x.val + 1) <;> simp only [ho] at h ⊢ <;> cases h <;> rfl
  case ldVxMem x =>
    simp only [exec, execLdVxMem, State.checked] at h ⊢
    cases ho : outOfRange s.i.toNat (x.val + 1) <;> simp only [ho] at h ⊢ <;> cases h <;> rfl
  all_goals cases h; rfl

theorem fetchDecodeExecute_inputs {s t : State} (l : List Event) (h : fetchDecodeExecute s = .next t) :
    fetchDecodeExecute { s with inputs := l } = .next { t with inputs := l } := by
  unfold fetchDecodeExecute at h ⊢
  have same : State.fetch { s with inputs := l } = s.fetch := rfl
  rw [same]
  cases hf : s.fetch with
  | error a => simp only [hf] at h ⊢; cases h; rfl
  | ok w =>
    simp only [hf] at h ⊢
    cases hd : decodeWord w with
    | error e => simp only [hd] at h ⊢; cases h; rfl
    | ok i => simp only [hd] at h ⊢; exact exec_inputs l h

theorem cpuStep_inputs {s t : State} (l : List Event) (h : cpuStep s = .next t) :
    cpuStep { s with inputs := l } = .next { t with inputs := l } := by
  have halted : State.halted { s with inputs := l } = s.halted := rfl
  unfold cpuStep at h ⊢
  rw [halted]
  split at h
  · next hh => cases h; rw [if_pos hh]
  · next hh =>
    rw [if_neg hh]
    split at h
    · next hw => cases h; simp only [hw]
    · next hw => rw [← fetchDecodeExecute_inputs l h]; simp only [hw]

theorem deliver_inputs {e : Event} {s t : State} (l : List Event) (h : deliver e s = .next t) :
    deliver e { s with inputs := l } = .next { t with inputs := l } := by
  cases e
  case step => exact cpuStep_inputs l h
  case tick =>
    cases h
    simp only [deliver, timerTick]
    change Host.Outcome.next (if s.halted then _ else _) = _
    split <;> rfl
  case keyDown k =>
    cases h
    simp only [deliver, keyDown]
    change Host.Outcome.next (if s.key k then _ else _) = _
    split
    · rfl
    · simp only [keyPressEdge]
      change Host.Outcome.next (if (s.setKey k true).halted then _ else
        match (s.setKey k true).wait with | some _ => _ | none => _) = _
      split
      · rfl
      · cases (s.setKey k true).wait <;> rfl
  case keyUp => cases h; rfl
  case reset => cases h; rfl
  case load im =>
    cases h
    simp only [deliver, hostLoad]
    split <;> rfl

/-- The first `n` events of a schedule. -/
def Schedule.take (sched : Schedule) (n : Nat) : List Event := (List.range n).map sched

/-- Every finite beginning of an unending run is the machine's own run on the list of its events, whatever
events are to come after them. -/
theorem core_run_take (sched : Schedule) (s : State) (n : Nat) (rest : List Event) :
    core.run n { s with inputs := sched.take n ++ rest } =
      .next { runAt sched s n with inputs := rest } := by
  induction n generalizing sched s with
  | zero => rfl
  | succ n ih =>
    obtain ⟨t, ht⟩ := deliver_answers (sched 0) { s with inputs := [] }
    have shift : ∀ k, runAt (fun j => sched (j + 1)) t k = runAt sched s (k + 1) := by
      intro k
      induction k with
      | zero => exact (runAt_succ (n := 0) ht).symm
      | succ k ihk => rw [runAt, ihk, runAt.eq_2 sched s (k + 1)]
    have ev : sched.take (n + 1) ++ rest = sched 0 :: (Schedule.take (fun j => sched (j + 1)) n ++ rest) := by
      simp only [Schedule.take, List.range_succ_eq_map, List.map_cons, List.map_map, List.cons_append]
      rfl
    have st : step { s with inputs := sched.take (n + 1) ++ rest } =
        .next { t with inputs := Schedule.take (fun j => sched (j + 1)) n ++ rest } := by
      rw [ev]
      show deliver (sched 0) { s with inputs := Schedule.take (fun j => sched (j + 1)) n ++ rest } = _
      exact deliver_inputs (s := { s with inputs := [] }) _ ht
    rw [core_run_succ st, ih, shift]

/-- A schedule in which a tick and a CPU step take turns is fair from every state, so fairness can be met. -/
theorem fair_alternating (s : State) : Fair (fun n => if n % 2 = 0 then .tick else .step) s where
  ticks := fun n _ => ⟨2 * n, by omega, if_pos (by omega)⟩
  steps := fun n _ => ⟨2 * n + 1, by omega, if_neg (by omega)⟩

end Sys2Proof.Machine
end

