-- ==== Sys2Proof/Tests/Slice0.lean ====
section
/-!
SUPPORT. The model's own tests. Expected values are the spec's: its encodings (30_encoding R51 to R55) and its
vectors (95_test_vectors, "TV" below), which the spec worked out by hand. The last part shows, for every
statement with hypotheses, a concrete state and operands that meet them all.
-/

namespace Sys2Proof.Tests

open Sys2Proof.Machine

/-! ### Helpers -/

/-- A view of the next state, if there is one. -/
def see {α : Type} (r : Result) (f : State → α) : Option α :=
  match r with
  | .next t => some (f t)
  | _ => none

/-- The next state, or reset where there is none. -/
def after (r : Result) : State := (see r id).getD State.reset

/-- Registers set from a list. -/
def regs (l : List (RegIdx × Byte)) (s : State) : State := l.foldl (fun s p => s.setV p.1 p.2) s

/-- Reset with some registers set. -/
def start (l : List (RegIdx × Byte)) : State := regs l State.reset

/-- One step of the machine on a word placed where it fetches. -/
def run (w : Nat) (s : State) : Result := step (s.withFetchWord 16 w)

/-- A core halted by a stack error. -/
def halted : State := { State.reset with err := ⟨.stackError, 0x300, 0x2400, 0⟩, dt := 5 }

/-- A core suspended in a key-wait for `V[x]`. -/
def waiting (x : RegIdx) (pc : Word) : State := { State.reset with wait := some x, pc := pc }

/-- A core with a call stack, newest first. -/
def called (pc : Word) (l : List Word) : State := { State.reset with stack := l, pc := pc }

/-- Sixteen return addresses. -/
def full : List Word := List.replicate 16 0x202

/-- An image of `n` bytes. -/
def imageOf (n : Nat) : List Byte := List.replicate n 1

theorem length_imageOf (n : Nat) : (imageOf n).length = n := List.length_replicate

/-- A view of the whole next state is that state. -/
theorem next_of_see {r : Result} {t : State} (h : see r id = some t) : r = .next t := by
  cases r with
  | next u => exact congrArg _ (Option.some.inj h)
  | fault => cases h
  | refused => cases h

/-- `exec` answers the state `after` gives. -/
theorem exec_after (i : Instr) (s : State) : exec i s = .next (after (exec i s)) := by
  obtain ⟨t, h⟩ := exec_answers i s
  rw [h]; rfl

/-! ### Well-formedness: what each check refuses (R54, R56; TV 2.1, 2.7; R32) -/

theorem test_wf_refuses_family0 : wordWf 0x0000 = false ∧ wordWf 0x00E1 = false ∧ wordWf 0x0123 = false := by
  decide
theorem test_wf_refuses_family5 : wordWf 0x5121 = false := by decide
theorem test_wf_refuses_family8 : wordWf 0x8AF8 = false ∧ wordWf 0x8AFF = false := by decide
theorem test_wf_refuses_family9 : wordWf 0x9AB1 = false := by decide
theorem test_wf_refuses_familyE : wordWf 0xE09F = false := by decide
theorem test_wf_refuses_familyF : wordWf 0xF000 = false ∧ wordWf 0xF075 = false ∧ wordWf 0xFFFF = false := by
  decide
theorem test_wf_accepts : wordWf 0x00E0 = true ∧ wordWf 0x5120 = true ∧ wordWf 0xF065 = true := by decide
/-- Every instruction term is well formed: the field widths are in the types (R58). -/
theorem test_wf_instr : (Instr.drw 15 15 15).wf = true ∧ Instr.cls.wf = true := by decide
theorem test_wf_image : imageWf (imageOf 3584) = true ∧ imageWf (imageOf 3585) = false := by
  unfold imageWf; rw [length_imageOf, length_imageOf]; decide
theorem test_wf_font : fontWf Config.fontBase Config.fontData = true ∧ fontWf 0x1B0 Config.fontData = true ∧
    fontWf 0x1B1 Config.fontData = false ∧ fontWf 0 (0 :: Config.fontData) = false := by decide
theorem test_wf_map_rows : opcodeMap.length = 34 := by decide
theorem test_memory_form_refuses : ¬ Memory.wf [(0x301, 1), (0x300, 1)] ∧ ¬ Memory.wf [(0x300, 0)] ∧
    ¬ Memory.wf [(4096, 1)] := by decide

/-! ### Decoding: one word per constructor, written bit by bit from the encodings of R51 to R55 -/

theorem test_decode_exact : decodeWord 0b0000000011100000 = .ok .cls ∧
    decodeWord 0b0000000011101110 = .ok .ret := by decide
theorem test_decode_addr : decodeWord 0b0001101010111100 = .ok (.jp 0xABC) ∧
    decodeWord 0b0010001000010000 = .ok (.call 0x210) ∧
    decodeWord 0b1010111111111111 = .ok (.ldI 0xFFF) ∧
    decodeWord 0b1011001100000000 = .ok (.jpV0 0x300) := by decide
theorem test_decode_imm : decodeWord 0b0011010000101010 = .ok (.seImm 4 0x2A) ∧
    decodeWord 0b0100010000101010 = .ok (.sneImm 4 0x2A) ∧
    decodeWord 0b0110101001111111 = .ok (.ldImm 10 0x7F) ∧
    decodeWord 0b0111000000000001 = .ok (.addImm 0 1) ∧
    decodeWord 0b1100000100001111 = .ok (.rnd 1 0x0F) := by decide
theorem test_decode_pairs : decodeWord 0b0101000100100000 = .ok (.seReg 1 2) ∧
    decodeWord 0b1001101010110000 = .ok (.sneReg 10 11) ∧
    decodeWord 0b1101000000010101 = .ok (.drw 0 1 5) := by decide
theorem test_decode_alu : decodeWord 0b1000101011110000 = .ok (.ldReg 10 15) ∧
    decodeWord 0b1000000100100001 = .ok (.orReg 1 2) ∧
    decodeWord 0b1000000100100010 = .ok (.andReg 1 2) ∧
    decodeWord 0b1000000100100011 = .ok (.xorReg 1 2) ∧
    decodeWord 0b1000000100100100 = .ok (.addReg 1 2) ∧
    decodeWord 0b1000000100100101 = .ok (.subReg 1 2) ∧
    decodeWord 0b1000000100100110 = .ok (.shr 1 2) ∧
    decodeWord 0b1000000100100111 = .ok (.subn 1 2) ∧
    decodeWord 0b1000000100101110 = .ok (.shl 1 2) := by decide
theorem test_decode_keys : decodeWord 0b1110001110011110 = .ok (.skp 3) ∧
    decodeWord 0b1110001110100001 = .ok (.sknp 3) := by decide
theorem test_decode_misc : decodeWord 0b1111001000000111 = .ok (.ldVxDt 2) ∧
    decodeWord 0b1111001100001010 = .ok (.ldVxK 3) ∧
    decodeWord 0b1111000000010101 = .ok (.ldDtVx 0) ∧
    decodeWord 0b1111000000011000 = .ok (.ldStVx 0) ∧
    decodeWord 0b1111001000011110 = .ok (.addIVx 2) ∧
    decodeWord 0b1111000000101001 = .ok (.ldFVx 0) ∧
    decodeWord 0b1111000000110011 = .ok (.ldBVx 0) ∧
    decodeWord 0b1111111101010101 = .ok (.ldMemVx 15) ∧
    decodeWord 0b1111111101100101 = .ok (.ldVxMem 15) := by decide
/-- The byte at the lower address is the high half (R34); fewer than two bytes are no instruction (R50). -/
theorem test_decode_bytes : decodeBytes [0x12, 0x01, 0x55] = .ok (.jp 0x201, [0x55]) ∧
    decodeBytes [0x12] = .error .truncated ∧ decodeBytes [] = .error .truncated := by decide
theorem test_decode_table_word : decodeTableWord 16 0x6342 = some (.ldImm 3 0x42) ∧
    decodeTableWord 16 0x0000 = none := by decide

/-! ### Control transfer (TV 2.2) -/

theorem test_jp : see (run 0x1ABC State.reset) (·.pc) = some 0xABC := by decide
theorem test_jp_odd : see (run 0x1201 State.reset) (·.pc) = some 0x201 := by decide
theorem test_call : see (run 0x2210 (called 0x204 [])) (fun t => (t.stack, t.pc)) = some ([0x206], 0x210) := by
  decide
theorem test_call_overflow : see (run 0x2400 (called 0x300 full)) (fun t => (t.err, t.pc, t.stack)) =
    some (⟨.stackError, 0x300, 0x2400, 0⟩, 0x300, full) := by decide
theorem test_ret : see (run 0x00EE (called 0x212 [0x206])) (fun t => (t.stack, t.pc)) = some ([], 0x206) := by
  decide
theorem test_ret_underflow : see (run 0x00EE State.reset) (fun t => (t.err, t.pc)) =
    some (⟨.stackError, 0x200, 0x00EE, 0⟩, 0x200) := by decide
theorem test_se_imm : see (run 0x342A (start [(4, 0x2A)])) (·.pc) = some 0x204 ∧
    see (run 0x342A (start [(4, 0x2B)])) (·.pc) = some 0x202 := by decide
theorem test_sne_imm : see (run 0x442A (start [(4, 0x2A)])) (·.pc) = some 0x202 ∧
    see (run 0x442A (start [(4, 0x2B)])) (·.pc) = some 0x204 := by decide
theorem test_se_reg : see (run 0x5120 (start [(1, 9), (2, 9)])) (·.pc) = some 0x204 ∧
    see (run 0x5120 (start [(1, 9), (2, 8)])) (·.pc) = some 0x202 := by decide
theorem test_sne_reg : see (run 0x9120 (start [(1, 9), (2, 8)])) (·.pc) = some 0x204 ∧
    see (run 0x9330 (start [(3, 7)])) (·.pc) = some 0x202 := by decide
theorem test_jp_v0_no_wrap : see (run 0xBFFF (start [(0, 0xFF)])) (·.pc) = some 0x10FE := by decide
theorem test_jp_v0_uses_v0 : see (run 0xB300 (start [(0, 1), (3, 0x80)])) (·.pc) = some 0x301 := by decide
theorem test_fetch_out_of_bounds : see (step { State.reset with pc := 0xFFF }) (·.err) =
    some ⟨.memoryBoundsError, 0xFFF, 0, 0x1000⟩ := by decide
theorem test_unknown_word : see (run 0x0000 State.reset) (fun t => (t.err, t.pc)) =
    some (⟨.unknownOpcode, 0x200, 0x0000, 0⟩, 0x200) := by decide

/-! ### Loads and arithmetic (TV S1 to S3, 2.3) -/

theorem test_ld_imm : see (run 0x6342 (start [(3, 0x11), (15, 1)])) (fun t => (t.getV 3, t.getV 15, t.pc)) =
    some (0x42, 1, 0x202) := by decide
theorem test_ld_imm_vf : see (run 0x6F42 State.reset) (·.getV 15) = some 0x42 := by decide
theorem test_add_imm_wraps : see (run 0x7001 (start [(0, 0xFF)])) (fun t => (t.getV 0, t.getV 15)) =
    some (0, 0) := by decide
theorem test_add_imm_vf : see (run 0x7F01 (start [(15, 1)])) (·.getV 15) = some 2 := by decide
theorem test_ld_reg : see (run 0x8120 (start [(1, 1), (2, 0x99)])) (fun t => (t.getV 1, t.getV 2)) =
    some (0x99, 0x99) := by decide
theorem test_or : see (run 0x8121 (start [(1, 0xF0), (2, 0x0F), (15, 1)])) (fun t => (t.getV 1, t.getV 15)) =
    some (0xFF, 1) := by decide
theorem test_and : see (run 0x8122 (start [(1, 0xF0), (2, 0x3C)])) (·.getV 1) = some 0x30 := by decide
theorem test_xor : see (run 0x8123 (start [(1, 0xF0), (2, 0x3C)])) (·.getV 1) = some 0xCC := by decide
theorem test_add_carry : see (run 0x8124 (start [(1, 0xC8), (2, 0x64)])) (fun t => (t.getV 1, t.getV 15)) =
    some (0x2C, 1) := by decide
theorem test_add_flag_wins : see (run 0x8F14 (start [(15, 5), (1, 1)])) (·.getV 15) = some 0 := by decide
theorem test_sub : see (run 0x8125 (start [(1, 0x10), (2, 0x20)])) (fun t => (t.getV 1, t.getV 15)) =
    some (0xF0, 0) := by decide
theorem test_sub_equal : see (run 0x8115 (start [(1, 0x33)])) (fun t => (t.getV 1, t.getV 15)) =
    some (0, 1) := by decide
theorem test_subn : see (run 0x8127 (start [(1, 0x01), (2, 0x00)])) (fun t => (t.getV 1, t.getV 15)) =
    some (0xFF, 0) := by decide
theorem test_subn_flag_wins : see (run 0x8F17 (start [(15, 5), (1, 9)])) (·.getV 15) = some 1 := by decide
/-- With `Y = X` the open `SHIFT_SOURCE` does not matter: words 8116 and 811E. -/
theorem test_shr : see (exec (.shr 1 1) (start [(1, 0x81)])) (fun t => (t.getV 1, t.getV 15)) = some (0x40, 1) := by
  simp only [exec, execShr]; cases Config.shiftSource <;> decide
theorem test_shl : see (exec (.shl 1 1) (start [(1, 0x81)])) (fun t => (t.getV 1, t.getV 15)) = some (0x02, 1) := by
  simp only [exec, execShl]; cases Config.shiftSource <;> decide

/-! ### Index register and memory (TV 2.4) -/

theorem test_ld_i : see (run 0xAFFF State.reset) (·.i) = some 0xFFF := by decide
theorem test_add_i_wraps : see (run 0xF21E { start [(2, 1)] with i := 0xFFF }) (fun t => (t.i, t.getV 15)) =
    some (0, 0) := by decide
theorem test_ld_f : see (run 0xF029 (start [(0, 0x1A)])) (·.i) = some 0x032 := by decide
theorem test_ld_b : see (run 0xF033 { start [(0, 123)] with i := 0xFFD })
    (fun t => t.mem.readBytes 0xFFD 3) = some [1, 2, 3] := by decide
theorem test_ld_b_bounds : see (run 0xF033 { start [(0, 123)] with i := 0xFFE })
    (fun t => (t.err, t.mem.readBytes 0xFFE 2)) = some (⟨.memoryBoundsError, 0x200, 0xF033, 0x1000⟩, [0, 0]) := by
  decide
theorem test_dump : see (run 0xF055 { start [(0, 0x77)] with i := 0xFFF }) (fun t => t.mem.read 0xFFF) =
    some 0x77 := by decide
theorem test_dump_bounds : see (run 0xF155 { State.reset with i := 0xFFF }) (·.err) =
    some ⟨.memoryBoundsError, 0x200, 0xF155, 0x1000⟩ := by decide
theorem test_load_font : see (run 0xF165 (start [(2, 7)])) (fun t => (t.getV 0, t.getV 1, t.getV 2, t.i)) =
    some (0xF0, 0x90, 7, 0) := by decide
theorem test_load_bounds : see (run 0xFF65 { start [(0, 7)] with i := 0xFF1 })
    (fun t => (t.err.addr, t.getV 0)) = some (0x1000, 7) := by decide
/-- TV P6: a dump into the instruction stream is fetched by the next step. -/
theorem test_self_modify : see (run 0xF155 { start [(0, 0x62), (1, 0x2A)] with i := 0x208, pc := 0x206 })
    (fun t => see (step t) (fun u => u.getV 2)) = some (some 0x2A) := by decide

/-! ### Display (TV 2.5) -/

/-- A state with one byte at 0x300 and I there. -/
def sprite (b : Byte) (l : List (RegIdx × Byte)) : State :=
  { start l with i := 0x300, mem := [(0x300, b)] }

theorem test_cls : see (run 0x00E0 { start [(15, 1)] with fb := Frame.clear.toggle 3 4 })
    (fun t => (t.fb.pixel 3 4, t.getV 15)) = some (false, 1) := by decide
theorem test_drw_bit_order : see (run 0xD011 (sprite 0x01 [])) (fun t => (t.fb.pixel 7 0, t.fb.pixel 0 0)) =
    some (true, false) := by decide
theorem test_drw_wraps_and_collides :
    see (run 0xD011 { sprite 0xA0 [(0, 63), (1, 63)] with fb := Frame.clear.toggle 1 31 })
      (fun t => (t.fb.pixel 63 31, t.fb.pixel 0 31, t.fb.pixel 1 31, t.getV 15)) =
    some (true, false, false, 1) := by decide

/-! ### Keypad, timers, random (TV 2.6) -/

/-- TV 2.6 row 2: a zero mask, whatever the free byte is. -/
theorem test_rnd_masked : see (exec (.rnd 1 0) State.reset) (·.getV 1) = some 0 := by
  rw [exec, execRnd]
  show some ((State.reset.setV 1 (State.reset.rand8 &&& 0)).getV 1) = some 0
  simp
theorem test_skp : see (run 0xE09E ((start [(0, 0xF5)]).setKey 5 true)) (·.pc) = some 0x204 ∧
    see (run 0xE09E (start [(0, 5)])) (·.pc) = some 0x202 := by decide
theorem test_sknp : see (run 0xE0A1 ((start [(0, 5)]).setKey 5 true)) (·.pc) = some 0x202 ∧
    see (run 0xE0A1 (start [(0, 5)])) (·.pc) = some 0x204 := by decide
theorem test_ld_vx_dt : see (run 0xF207 { State.reset with dt := 0x1E }) (fun t => (t.getV 2, t.dt)) =
    some (0x1E, 0x1E) := by decide
theorem test_ld_dt_vx : see (run 0xF015 (start [(0, 0xFF)])) (·.dt) = some 255 := by decide
theorem test_ld_st_vx : see (run 0xF018 { State.reset with st := 9 }) (fun t => (t.st, t.sndOut)) =
    some (0, false) := by decide
theorem test_ld_vx_k : see (run 0xF10A { State.reset with pc := 0x204 }) (fun t => (t.wait, t.pc)) =
    some (some 1, 0x204) := by decide
theorem test_key_completes : (keyDown 15 (waiting 15 0x300)).getV 15 = 0x0F ∧
    (keyDown 15 (waiting 15 0x300)).pc = 0x302 ∧ (keyDown 15 (waiting 15 0x300)).wait = none := by decide
theorem test_key_held_is_no_edge : keyDown 7 ((waiting 1 0x204).setKey 7 true) =
    (waiting 1 0x204).setKey 7 true := by decide
theorem test_tick : (timerTick { State.reset with dt := 1 }).dt = 0 ∧ (timerTick State.reset).dt = 0 ∧
    (timerTick halted).dt = 5 := by decide

/-! ### Reset and load (TV 2.7) -/

theorem test_reset : (hostReset halted).err = ErrRecord.clear ∧
    (hostReset halted).mem.readBytes 0x000 5 = [0xF0, 0x90, 0x90, 0x90, 0xF0] ∧
    (hostReset halted).mem.readBytes 0x04B 6 = [0xF0, 0x80, 0xF0, 0x80, 0x80, 0] := by decide
theorem test_load : (hostLoad [0x12, 0x00] { start [(3, 7)] with dt := 9, mem := [(0x300, 0x55)] }).mem =
      [(0x200, 0x12)] ∧
    (hostLoad [0x12, 0x00] { start [(3, 7)] with dt := 9 }).dt = 0 ∧
    (hostLoad [0x12, 0x00] { start [(3, 7)] with dt := 9 }).getV 3 = 7 := by decide
theorem test_load_too_long : (hostLoad (imageOf 3585) State.reset).err = ⟨.loadError, 0x200, 0, 3585⟩ := by
  unfold hostLoad; rw [length_imageOf]; decide

/-! ### Witnesses: states and operands that meet the statements' hypotheses -/

/-- `LD V0, 0x12` at the last fetchable address. -/
def lastWord : State := { State.reset with pc := 0xFFE, mem := [(0xFFE, 0x60), (0xFFF, 0x12)] }

theorem witness_EncodeOfDecodeIsSame : decodeWord 0x8AF0 = .ok (.ldReg 10 15) := by decide
theorem witness_DecodeFollowsOpcodeMap : (⟨"LD_Vx___I", 0xF0FF, 0xF065⟩ : OpcodeRow) ∈ opcodeMap ∧
    OpcodeRow.accepts ⟨"LD_Vx___I", 0xF0FF, 0xF065⟩ 0xF165 = true ∧ wordWf 0x5121 = false := by decide
theorem witness_StepRunsDecodedInstruction :
    (lastWord.Running ∧ lastWord.pc.toNat = 4094 ∧ lastWord.inputs = [] ∧
      decodeWord (lastWord.mem.read lastWord.pc.toNat ++ lastWord.mem.read (lastWord.pc.toNat + 1)) =
        .ok (.ldImm 0 0x12)) ∧
    { lastWord with inputs := [.step] }.Running ∧ { lastWord with inputs := [.step] }.inputs = .step :: [] := by
  unfold State.Running; decide
theorem witness_FetchOutOfBoundsTakesError :
    { State.reset with pc := 0xFFF }.Running ∧ { State.reset with pc := 0xFFF }.inputs = [] ∧
      4095 ≤ { State.reset with pc := 0xFFF }.pc.toNat ∧ 4095 ≤ { State.reset with pc := 0x10FE }.pc.toNat := by
  unfold State.Running; decide
theorem witness_UnknownWordTakesError :
    State.reset.Running ∧ State.reset.inputs = [] ∧ State.reset.pc.toNat < 4095 ∧
      wordWf (State.reset.mem.read State.reset.pc.toNat ++ State.reset.mem.read (State.reset.pc.toNat + 1)) =
        false := by
  unfold State.Running; decide
theorem witness_SuspendedStepChangesNothing :
    (waiting 1 0x204).err.kind = .none ∧ (waiting 1 0x204).wait = some 1 ∧ (waiting 1 0x204).inputs = [] ∧
      { waiting 1 0x204 with inputs := [.step] }.inputs = .step :: [] := by decide
theorem witness_HaltedCoreDoesNothing :
    halted.err.kind ≠ .none ∧ halted.inputs = [] ∧ { halted with inputs := [.step] }.inputs = .step :: [] ∧
      { halted with inputs := [.tick] }.inputs = .tick :: [] := by decide
theorem witness_EventsAreStepsOfTheirAgents :
    { State.reset with inputs := [.tick] }.inputs = .tick :: [] ∧
      { State.reset with inputs := [.keyDown 15] }.inputs = .keyDown 15 :: [] ∧
      { State.reset with inputs := [.keyUp 0] }.inputs = .keyUp 0 :: [] ∧
      { State.reset with inputs := [.reset] }.inputs = .reset :: [] ∧
      { State.reset with inputs := [.load [0x12, 0x00]] }.inputs = .load [0x12, 0x00] :: [] := by decide
theorem witness_ReturnPopsOrTakesStackError :
    (called 0x212 [0x206]).stack = 0x206 :: [] ∧ (called 0x200 full).stack = 0x202 :: List.replicate 15 0x202 ∧
      State.reset.sp = 0 := by decide
theorem witness_JumpSetsPc : State.reset.pc.toNat = (0x200 : Addr).toNat ∧ (0xFFF : Addr).toNat = 0xFFF := by
  decide
theorem witness_CallPushesReturnAddress :
    State.reset.sp < 16 ∧ (called 0x200 (List.replicate 15 0x202)).sp < 16 := by decide
theorem witness_StackErrorRecords : 16 ≤ (called 0x300 full).sp ∧ State.reset.sp = 0 := by decide
theorem witness_SkipsOnRegisters : (1 : Nibble) ≠ 0 ∧ (15 : Nibble) ≠ 0 := by decide
theorem witness_CallThenReturnComesBack :
    (called 0x204 (List.replicate 15 0x202)).sp < 16 ∧
      exec (.call 0x210) (called 0x204 (List.replicate 15 0x202)) =
        .next (after (exec (.call 0x210) (called 0x204 (List.replicate 15 0x202)))) :=
  ⟨by decide, exec_after _ _⟩
theorem witness_AddWithCarryOut : (1 : RegIdx) ≠ 15 := by decide
theorem witness_SubtractBothOrders : (14 : RegIdx) ≠ 15 := by decide
theorem witness_ShiftsByOne : (1 : RegIdx) ≠ 15 ∧ 0x81 =
    (if Config.shiftSource = .x then ((start [(1, 0x81)]).getV 1).toNat else ((start [(1, 0x81)]).getV 1).toNat) := by
  refine ⟨by decide, ?_⟩
  split <;> decide
theorem witness_StoreDecimalDigits :
    State.reset.mem.wf ∧ { State.reset with i := 0xFFD }.i.toNat + 2 < 4096 := by decide
theorem witness_DumpRegisters :
    State.reset.mem.wf ∧ { State.reset with i := 0xFF0 }.i.toNat + (15 : RegIdx).val < 4096 ∧
      (15 : RegIdx) ≤ 15 := by decide
theorem witness_LoadRegisters :
    { State.reset with i := 0xFFF }.i.toNat + (0 : RegIdx).val < 4096 ∧ (0 : RegIdx) ≤ 0 := by decide
theorem witness_OutOfRangeTakesBoundsError :
    4096 ≤ { State.reset with i := 0xFFE }.i.toNat + 2 ∧
      4096 ≤ { State.reset with i := 0xFFF }.i.toNat + (1 : RegIdx).val ∧
      4096 ≤ { State.reset with i := 0xFF2 }.i.toNat + (15 : Nibble).toNat - 1 ∧ 0 < (15 : Nibble).toNat := by
  decide

/-- A state about to dump all registers just below the end of memory. -/
def dumping : State := { start [(0, 0x10), (15, 0x1F)] with i := 0xFF0 }

theorem witness_DumpThenLoadRoundTrip :
    dumping.mem.wf ∧ dumping.i.toNat + (15 : RegIdx).val < 4096 ∧
      exec (.ldMemVx 15) dumping = .next (after (exec (.ldMemVx 15) dumping)) ∧
      { State.reset with mem := (after (exec (.ldMemVx 15) dumping)).mem
                         i := (after (exec (.ldMemVx 15) dumping)).i }.mem =
        (after (exec (.ldMemVx 15) dumping)).mem :=
  ⟨by decide, by decide, exec_after _ _, rfl⟩

/-- A state about to patch the word after its own instruction. -/
def patching : State := { start [(0, 0x62), (1, 0x2A)] with i := 0x208, pc := 0x206 }

theorem witness_StoreIsSeenByNextFetch :
    patching.mem.wf ∧ 1 ≤ (1 : RegIdx).val ∧ patching.i.toNat + (1 : RegIdx).val < 4096 ∧
      patching.i.toNat = patching.pc.toNat + 2 ∧
      exec (.ldMemVx 1) patching = .next (after (exec (.ldMemVx 1) patching)) :=
  ⟨by decide, by decide, by decide, by decide, exec_after _ _⟩

theorem witness_DrawSprite_empty : (0 : Nibble).toNat = 0 := by decide
theorem witness_DrawSprite_range : { State.reset with i := 0xFF1 }.i.toNat + (15 : Nibble).toNat - 1 < 4096 := by
  decide
/-- A covered pixel that is set, and a display with no covered pixel set. -/
theorem witness_DrawSprite_collision :
    spriteCovers 0 0 [0x80] 0 0 = true ∧ (Frame.clear.toggle 0 0).pixel 0 0 = true ∧
      ∀ px py, spriteCovers 0 0 [0x80] px py = true → Frame.clear.pixel px py = false :=
  ⟨by decide, by decide, fun _ _ _ => Frame.pixel_clear _ _⟩
theorem witness_DrawTwiceRestoresDisplay :
    (sprite 0xC0 []).i.toNat + (1 : Nibble).toNat - 1 < 4096 ∧
      exec (.drw 0 1 1) (sprite 0xC0 []) = .next (after (exec (.drw 0 1 1) (sprite 0xC0 []))) ∧
      (after (exec (.drw 0 1 1) (sprite 0xC0 []))).mem = (sprite 0xC0 []).mem ∧
      (after (exec (.drw 0 1 1) (sprite 0xC0 []))).i = (sprite 0xC0 []).i ∧
      (after (exec (.drw 0 1 1) (sprite 0xC0 []))).getV 0 = (sprite 0xC0 []).getV 0 ∧
      (after (exec (.drw 0 1 1) (sprite 0xC0 []))).getV 1 = (sprite 0xC0 []).getV 1 :=
  ⟨by decide, exec_after _ _, by decide, by decide, by decide, by decide⟩
theorem witness_RandomIsMasked : (0x0F : Byte).getLsbD 4 = false := by decide
theorem witness_SkipsOnKey : (5 : KeyIdx).val = ((start [(0, 0xF5)]).getV 0).toNat % 16 ∧
    (15 : KeyIdx).val = ((start [(0, 0xFF)]).getV 0).toNat % 16 := by decide
theorem witness_KeyEdges :
    (State.reset.setKey 7 true).key 7 = true ∧ (waiting 15 0x300).key 15 = false ∧
      (waiting 15 0x300).err.kind = .none ∧ (waiting 15 0x300).wait = some 15 ∧
      State.reset.key 3 = false ∧ State.reset.wait = none ∧ halted.key 0 = false ∧ halted.err.kind ≠ .none := by
  decide
theorem witness_TickCountsDown : State.reset.err.kind = .none ∧ halted.err.kind ≠ .none := by decide
theorem witness_TimersRunWhileSuspended :
    (∀ e ∈ [Event.step, .tick, .tick], e = .step ∨ e = .tick) ∧ (waiting 3 0x300).err.kind = .none ∧
      (waiting 3 0x300).wait = some 3 ∧
      { waiting 3 0x300 with inputs := [.step, .tick, .tick, .reset] }.inputs =
        [.step, .tick, .tick] ++ [.reset] := by decide
theorem witness_FairRunsMakeProgress :
    (Fair (fun n => if n % 2 = 0 then .tick else .step) (waiting 3 0x300) ∧
      (waiting 3 0x300).err.kind = .none ∧ (waiting 3 0x300).wait = some 3) ∧
    (Fair (fun n => if n % 2 = 0 then .tick else .step) State.reset ∧ State.reset.Running) ∧
    ∀ n, (if n % 2 = 0 then Event.tick else .step) = .step ∨ (if n % 2 = 0 then Event.tick else .step) = .tick :=
  ⟨⟨fair_alternating _, by decide, by decide⟩, ⟨fair_alternating _, by unfold State.Running; decide⟩,
    fun n => by split <;> simp⟩
/-- An unfair schedule is refused: steps alone, on a core whose timer step stays enabled. -/
theorem test_unfair_schedule : ¬ Fair (fun _ => .step) (waiting 3 0x300) := by
  have stays : ∀ n, (runAt (fun _ => .step) (waiting 3 0x300) n) = waiting 3 0x300 := by
    intro n
    induction n with
    | zero => rfl
    | succ n ih => exact runAt_succ (by rw [ih]; rfl)
  intro h
  obtain ⟨m, -, hm⟩ := h.ticks 0 fun m _ => by rw [stays m]; exact rfl
  cases hm
theorem witness_TickCommutesWithInstruction :
    (∀ x, Instr.jp 0x300 ≠ .ldVxDt x ∧ Instr.jp 0x300 ≠ .ldDtVx x ∧ Instr.jp 0x300 ≠ .ldStVx x) ∧
      State.reset.err.kind = .none ∧
      exec (.jp 0x300) State.reset = .next (after (exec (.jp 0x300) State.reset)) ∧
      (after (exec (.jp 0x300) State.reset)).err.kind = .none :=
  ⟨fun _ => ⟨nofun, nofun, nofun⟩, by decide, exec_after _ _, by decide⟩
theorem witness_SoundTimerIsNeverRead :
    exec (.drw 0 0 5) State.reset = .next (after (exec (.drw 0 0 5) State.reset)) := exec_after _ _
theorem witness_InstructionErrsExactlyWhen :
    State.reset.err.kind = .none ∧ exec .ret State.reset = .next (after (exec .ret State.reset)) ∧
      Instr.ret.CheckFails State.reset ∧ ¬ (Instr.drw 0 0 0).CheckFails { State.reset with i := 0xFFF } :=
  ⟨by decide, exec_after _ _, by unfold Instr.CheckFails; decide, by unfold Instr.CheckFails; decide⟩
theorem witness_ErrorsArePrecise :
    State.reset.err.kind = .none ∧ exec .ret State.reset = .next (after (exec .ret State.reset)) ∧
      (after (exec .ret State.reset)).err.kind ≠ .none := ⟨by decide, exec_after _ _, by decide⟩
theorem witness_InstructionWritesOnlyItsParts :
    State.reset.mem.wf ∧ exec (.ldBVx 0) State.reset = .next (after (exec (.ldBVx 0) State.reset)) :=
  ⟨by decide, exec_after _ _⟩
theorem witness_ProgramCounterTable :
    lastWord.pc.toNat < 4095 ∧ lastWord.err.kind = .none ∧
      exec (.ldImm 0 0x12) lastWord = .next (after (exec (.ldImm 0 0x12) lastWord)) ∧
      (after (exec (.ldImm 0 0x12) lastWord)).err.kind = .none :=
  ⟨by decide, by decide, exec_after _ _, by decide⟩
theorem witness_FlagRegisterDiscipline :
    State.reset.err.kind = .none ∧
      exec (.addReg 15 1) State.reset = .next (after (exec (.addReg 15 1) State.reset)) ∧
      (after (exec (.addReg 15 1) State.reset)).err.kind = .none ∧ (Instr.addReg 15 1).isFlagWriter = true ∧
      exec (.ldImm 14 1) State.reset = .next (after (exec (.ldImm 14 1) State.reset)) ∧
      (after (exec (.ldImm 14 1) State.reset)).err.kind = .none ∧
      (Instr.ldImm 14 1).isFlagWriter = false ∧ ¬ (Instr.ldImm 14 1).MayWrite State.reset (.reg 15) :=
  ⟨by decide, exec_after _ _, by decide, by decide, exec_after _ _, by decide, by decide,
    by unfold Instr.MayWrite; decide⟩
theorem witness_HaltedUntilReset :
    { halted with inputs := [.load []] }.err.kind ≠ .none ∧
      (∀ rest, { halted with inputs := [.load []] }.inputs ≠ .reset :: rest) ∧
      step { halted with inputs := [.load []] } = .next (hostLoad [] { halted with inputs := [] }) :=
  ⟨by decide, nofun, next_of_see (by decide)⟩
theorem witness_ResetLeavesResetValues : hostReset halted = hostReset halted ∧ (79 : Nat) < 80 ∧
    Config.fontBase + 80 ≤ 80 := by decide
theorem witness_LoadPlacesImageOrTakesLoadError :
    (imageOf 3584).length ≤ 3584 ∧ 3583 < (imageOf 3584).length ∧ ([] : List Byte).length ≤ 3584 ∧
      0x200 + ([] : List Byte).length ≤ 0x200 ∧ 3584 < (imageOf 3585).length := by
  rw [length_imageOf, length_imageOf]; decide

/-- A core at a jump to itself. -/
def ended : State := { State.reset with mem := [(0x200, 0x12)] }

theorem witness_EndedRunStaysEnded : ended.EndedAt 0x200 ∧ ended.inputs = [] := by
  unfold State.EndedAt; decide
theorem witness_StepKeepsInvariant_inv : ended.Inv where
  mem := by decide
  index := by decide
  depth := by decide
  returns := fun _ h => nomatch h
  pc := by decide
  waiting := by decide
  clear := by decide
  bounds := by decide
theorem witness_StepKeepsInvariant_step : step ended = .next ended := next_of_see (by decide)

end Sys2Proof.Tests
end

section
/-!
PROOFS. Control transfer (40_control): the jump and the skips on an immediate, with the rules they rest on, which are
the words of their formats, the meaning each dispatches to, and what a jump and a skip do to PC.
-/

namespace Sys2Proof

/-! ### The words (R55) -/

theorem isWordOf_jp (nnn : Addr) : IsWordOf (formatA 0x1 nnn) (.jp nnn) :=
  ⟨by simp [decodeWord], rfl⟩

theorem isWordOf_seImm (x : RegIdx) (nn : Byte) : IsWordOf (formatI 0x3 x nn) (.seImm x nn) :=
  ⟨by simp [decodeWord], rfl⟩

theorem isWordOf_sneImm (x : RegIdx) (nn : Byte) : IsWordOf (formatI 0x4 x nn) (.sneImm x nn) :=
  ⟨by simp [decodeWord], rfl⟩

end Sys2Proof

namespace Sys2Proof.Machine

/-! ### The meanings (R73, R75, R76) -/

theorem exec_jp (nnn : Addr) (s : State) : exec (.jp nnn) s = .next (s.jump (addr16 nnn)) := rfl

theorem exec_seImm (x : RegIdx) (nn : Byte) (s : State) :
    exec (.seImm x nn) s = .next (s.skipIf (s.getV x == nn)) := rfl

theorem exec_sneImm (x : RegIdx) (nn : Byte) (s : State) :
    exec (.sneImm x nn) s = .next (s.skipIf (s.getV x != nn)) := rfl

/-! ### PC after a jump and after a skip (R71) -/

theorem State.jump_self (s : State) : s.jump s.pc = s := rfl

/-- At the last byte of memory the second byte of the pair is out of range, at 4096 (R33). -/
theorem State.fetch_of_last_byte {s : State} (h : s.pc.toNat = 0xFFF) : s.fetch = .error 4096 := by
  rcases s.fetch_cases with ⟨hlt, -⟩ | ⟨-, hf⟩
  · omega
  · rw [hf, h]; rfl

theorem State.pc_skipIf_beq (s : State) (a b : Byte) :
    (s.skipIf (a == b)).pc = if a.toNat = b.toNat then s.pc + 4 else s.pc + 2 := by
  simp only [State.skipIf_pc, beq_iff_eq, BitVec.toNat_inj]

theorem State.pc_skipIf_bne (s : State) (a b : Byte) :
    (s.skipIf (a != b)).pc = if a.toNat = b.toNat then s.pc + 2 else s.pc + 4 := by
  simp only [State.skipIf_pc, bne_iff_ne, BitVec.toNat_inj, ite_not]

/-! ### The obligations -/

/-- Settles O13: the word by the fields of format A, the next state by the rules of the jump, and a jump to PC itself
by writing back the PC that stands there. -/
theorem jumpSetsPc : Obligations.JumpSetsPc := by
  intro nnn s
  have target : (s.jump (addr16 nnn)).pc.toNat = nnn.toNat := addr16_toNat nnn
  refine ⟨isWordOf_jp nnn, ⟨_, exec_jp nnn s, target, ?_, onlyChanges_jump s _⟩, ?_⟩
  · intro last
    exact State.fetch_of_last_byte (target.trans last)
  · intro here
    have same : addr16 nnn = s.pc := BitVec.eq_of_toNat_eq ((addr16_toNat nnn).trans here.symm)
    rw [exec_jp, same, State.jump_self]

/-- Settles O16: each skip is `skipIf` on its comparison, and the comparison of bytes is that of their values. -/
theorem skipsOnImmediate : Obligations.SkipsOnImmediate := by
  intro x nn s
  constructor
  · exact ⟨isWordOf_seImm x nn, _, exec_seImm x nn s, s.pc_skipIf_beq _ _, onlyChanges_skipIf s _⟩
  · exact ⟨isWordOf_sneImm x nn, _, exec_sneImm x nn s, s.pc_skipIf_bne _ _, onlyChanges_skipIf s _⟩

end Sys2Proof.Machine
end

section
/-!
PROOFS. Register loads and arithmetic (41_alu): the three instructions that write one register and no flag, with the
rules they rest on, which are the words of their formats, the meaning each dispatches to, and what writing a register
and moving on to the next instruction does to the state.
-/

namespace Sys2Proof

/-! ### The words (R55) -/

theorem isWordOf_ldImm (x : RegIdx) (nn : Byte) : IsWordOf (formatI 0x6 x nn) (.ldImm x nn) :=
  ⟨by simp [decodeWord], rfl⟩

theorem isWordOf_addImm (x : RegIdx) (nn : Byte) : IsWordOf (formatI 0x7 x nn) (.addImm x nn) :=
  ⟨by simp [decodeWord], rfl⟩

theorem isWordOf_ldReg (x y : RegIdx) : IsWordOf (formatR 0x8 x y 0x0) (.ldReg x y) :=
  ⟨by simp [decodeWord, decodeAlu], rfl⟩

end Sys2Proof

namespace Sys2Proof.Machine

/-! ### The meanings (R91, R92, R93) -/

theorem exec_ldImm (x : RegIdx) (nn : Byte) (s : State) : exec (.ldImm x nn) s = aluPlain x nn s := rfl

theorem exec_addImm (x : RegIdx) (nn : Byte) (s : State) :
    exec (.addImm x nn) s = aluPlain x (s.getV x + nn) s := rfl

theorem exec_ldReg (x y : RegIdx) (s : State) : exec (.ldReg x y) s = aluPlain x (s.getV y) s := rfl

/-! ### A register write with no flag -/

/-- The two frames in sequence: the register write, then the move of PC. -/
theorem onlyChanges_setV_advance (s : State) (x : RegIdx) (r : Byte) :
    OnlyChanges s (s.setV x r).advance fun p => p = .pc ∨ p = .reg x :=
  ((onlyChanges_setV s x r).mono fun _ h => .inr h).trans
    ((onlyChanges_advance _).mono fun _ h => .inl h)

/-- All that an instruction with no flag does, VF being written only as the destination itself. -/
theorem aluPlain_spec (x : RegIdx) (r : Byte) (s : State) :
    ∃ t, aluPlain x r s = .next t ∧ t.getV x = r ∧ t.pc = s.pc + 2 ∧
      OnlyChanges s t fun p => p = .pc ∨ p = .reg x :=
  ⟨(s.setV x r).advance, rfl, by simp, rfl, onlyChanges_setV_advance s x r⟩

/-! ### The obligations -/

/-- Settles O20: the register write with the literal. -/
theorem loadImmediate : Obligations.LoadImmediate := by
  intro x nn s
  rw [exec_ldImm]
  exact ⟨isWordOf_ldImm x nn, aluPlain_spec x nn s⟩

/-- Settles O21: the register write with the sum, which bit vectors of width 8 take modulo 256. -/
theorem addImmediate : Obligations.AddImmediate := by
  intro x nn s
  obtain ⟨t, next, sum, pc, frame⟩ := aluPlain_spec x (s.getV x + nn) s
  have wraps : (t.getV x).toNat = ((s.getV x).toNat + nn.toNat) % 256 := by rw [sum, BitVec.toNat_add]
  exact ⟨isWordOf_addImm x nn, t, (exec_addImm x nn s).trans next, wraps, pc, frame⟩

/-- Settles O22: the register write with the other register's value. -/
theorem copyRegister : Obligations.CopyRegister := by
  intro x y s
  rw [exec_ldReg]
  exact ⟨isWordOf_ldReg x y, aluPlain_spec x (s.getV y) s⟩

end Sys2Proof.Machine
end

section
/-!
PROOFS. The index register (42_index_memory): the load of I with a literal, with the rules it rests on, which are the
word of its format, the meaning it dispatches to, and what writing I and moving on to the next instruction leaves
unchanged.
-/

namespace Sys2Proof

/-! ### The word (R55) -/

theorem isWordOf_ldI (nnn : Addr) : IsWordOf (formatA 0xA nnn) (.ldI nnn) :=
  ⟨by simp [decodeWord], rfl⟩

end Sys2Proof

namespace Sys2Proof.Machine

/-! ### The meaning (R110) -/

theorem exec_ldI (nnn : Addr) (s : State) : exec (.ldI nnn) s = .next { s with i := addr16 nnn }.advance := rfl

/-! ### A write of the index register -/

/-- A write of I changes I alone (R12). -/
theorem onlyChanges_index (s : State) (a : Word) : OnlyChanges s { s with i := a } fun p => p = .index := by
  intro p hp
  cases p
  case index => exact absurd (Eq.refl _) hp
  all_goals exact Eq.refl _

/-- The two frames in sequence: the write of I, then the move of PC. -/
theorem onlyChanges_index_advance (s : State) (a : Word) :
    OnlyChanges s { s with i := a }.advance fun p => p = .pc ∨ p = .index :=
  ((onlyChanges_index s a).mono fun _ h => .inr h).trans
    ((onlyChanges_advance _).mono fun _ h => .inl h)

/-! ### The obligation -/

/-- Settles O27: the word by the fields of format A, and the next state by the write of I with the literal, which
keeps its value when widened to 16 bits. -/
theorem loadIndex : Obligations.LoadIndex := by
  intro nnn s
  have literal : ({ s with i := addr16 nnn }.advance).i.toNat = nnn.toNat := addr16_toNat nnn
  have next_pc : ({ s with i := addr16 nnn }.advance).pc = s.pc + 2 := rfl
  exact ⟨isWordOf_ldI nnn, _, exec_ldI nnn s, literal, next_pc, onlyChanges_index_advance s (addr16 nnn)⟩

end Sys2Proof.Machine
end

section
/-!
PROOFS. The display (43_display): the clearing of the display, with the rules it rests on, which are the one word it
has, the meaning it dispatches to, and what a new display and moving on to the next instruction leaves unchanged.
-/

namespace Sys2Proof

/-! ### The word (R55) -/

theorem isWordOf_cls : IsWordOf 0x00E0 .cls :=
  ⟨by decide, rfl⟩

end Sys2Proof

namespace Sys2Proof.Machine

/-! ### The meaning (R120) -/

theorem exec_cls (s : State) : exec .cls s = .next { s with fb := Frame.clear }.advance := rfl

/-! ### A new display -/

/-- The two frames in sequence: the new display, then the move of PC. VF is in neither. -/
theorem onlyChanges_fb_advance (s : State) (f : Frame) :
    OnlyChanges s { s with fb := f }.advance fun p => p = .pc ∨ p.IsPixel :=
  ((onlyChanges_fb s f).mono fun _ h => .inr h).trans
    ((onlyChanges_advance _).mono fun _ h => .inl h)

/-! ### The obligation -/

/-- Settles O36: the next state by the write of the clear display, each pixel of which is false. -/
theorem clearDisplay : Obligations.ClearDisplay := by
  intro s
  have all_false : ∀ x y, ({ s with fb := Frame.clear }.advance).fb.pixel x y = false := Frame.pixel_clear
  have next_pc : ({ s with fb := Frame.clear }.advance).pc = s.pc + 2 := rfl
  exact ⟨isWordOf_cls, _, exec_cls s, all_false, next_pc, onlyChanges_fb_advance s Frame.clear⟩

end Sys2Proof.Machine
end

section
/-!
PROOFS. The keypad (44_keypad_timers_random): the two skips on a key, with the rules they rest on, which are the words
of their format, the meaning each dispatches to, and the key that the low nibble of a register names.
-/

namespace Sys2Proof

/-! ### The words (R55) -/

theorem isWordOf_skp (x : RegIdx) : IsWordOf (formatI 0xE x 0x9E) (.skp x) :=
  ⟨by simp [decodeWord, decodeKey], rfl⟩

theorem isWordOf_sknp (x : RegIdx) : IsWordOf (formatI 0xE x 0xA1) (.sknp x) :=
  ⟨by simp [decodeWord, decodeKey], rfl⟩

end Sys2Proof

namespace Sys2Proof.Machine

/-! ### The meanings (R131, R132) -/

theorem exec_skp (x : RegIdx) (s : State) : exec (.skp x) s = .next (s.skipIf (s.key (s.lowNibble x))) := rfl

theorem exec_sknp (x : RegIdx) (s : State) : exec (.sknp x) s = .next (s.skipIf (!s.key (s.lowNibble x))) := rfl

/-! ### The key a register names, and PC after a skip on a negated condition -/

/-- The high nibble of the register is ignored. -/
theorem State.lowNibble_eq {s : State} {x : RegIdx} {k : KeyIdx} (h : k.val = (s.getV x).toNat % 16) :
    s.lowNibble x = k :=
  Fin.ext ((s.lowNibble_val x).trans h.symm)

theorem State.pc_skipIf_not (s : State) (c : Bool) :
    (s.skipIf (!c)).pc = if c then s.pc + 2 else s.pc + 4 := by
  cases c <;> rfl

/-! ### The obligation -/

/-- Settles O40: the key tested is `k`, as the low nibble is; SKP is `skipIf` on its state, SKNP on the negation. -/
theorem skipsOnKey : Obligations.SkipsOnKey := by
  intro x s k hk
  have tested : s.lowNibble x = k := State.lowNibble_eq hk
  rw [exec_skp, exec_sknp, tested]
  constructor
  · exact ⟨isWordOf_skp x, _, rfl, s.skipIf_pc _, onlyChanges_skipIf s _⟩
  · exact ⟨isWordOf_sknp x, _, rfl, s.pc_skipIf_not _, onlyChanges_skipIf s _⟩

end Sys2Proof.Machine
end

section
/-!
PROOFS. Encoding (30_encoding): the decoder and the encoder are inverse to each other, and the decoder against the
opcode map and the list of unknown words, with the rules they rest on, which are the fixed bits of a word that matches
a row and the word rebuilt from its free fields.
-/

namespace Sys2Proof

/-! ### Decoding and encoding (R54, R55) -/

/-- The two exact words are decided; every other word's fields read back what was put in (R51). -/
theorem decodeWord_encode (i : Instr) : decodeWord (encode i) = .ok i := by
  cases i
  case cls | ret => decide
  case jp | call | ldI | jpV0 => simp [encode, decodeWord]
  case seImm | sneImm | ldImm | addImm | rnd => simp [encode, decodeWord]
  case seReg | sneReg | drw => simp [encode, decodeWord]
  case ldReg | orReg | andReg | xorReg | addReg | subReg | shr | subn | shl =>
    simp [encode, decodeWord, decodeAlu]
  case skp | sknp => simp [encode, decodeWord, decodeKey]
  case ldVxDt | ldVxK | ldDtVx | ldStVx | addIVx | ldFVx | ldBVx | ldMemVx | ldVxMem =>
    simp [encode, decodeWord, decodeMisc]

section

variable {w : Word} {op : Nibble}

/-- The three layouts rebuilt from the free fields, where the fixed ones are known. -/
theorem formatA_of_fieldOp (h : fieldOp w = op) : formatA op (fieldNNN w) = w := h ▸ formatA_fields w

theorem formatI_of_fieldOp (h : fieldOp w = op) : formatI op (fieldX w) (fieldNN w) = w := h ▸ formatI_fields w

theorem formatI_of_fieldNN {nn : Byte} (h : fieldOp w = op) (hn : fieldNN w = nn) : formatI op (fieldX w) nn = w :=
  hn ▸ formatI_of_fieldOp h

theorem formatR_of_fieldOp (h : fieldOp w = op) : formatR op (fieldX w) (fieldY w) (fieldN w) = w :=
  h ▸ formatR_fields w

theorem formatR_of_fieldN {n : Nibble} (h : fieldOp w = op) (hn : fieldN w = n) :
    formatR op (fieldX w) (fieldY w) n = w :=
  hn ▸ formatR_of_fieldOp h

end

theorem encode_of_decodeAlu {w : Word} {i : Instr} (hop : fieldOp w = 0x8) (h : decodeAlu w = .ok i) :
    encode i = w := by
  unfold decodeAlu at h
  split at h
  case h_10 => cases h
  all_goals
    next hn =>
      cases h
      exact formatR_of_fieldN hop hn

theorem encode_of_decodeKey {w : Word} {i : Instr} (hop : fieldOp w = 0xE) (h : decodeKey w = .ok i) :
    encode i = w := by
  unfold decodeKey at h
  split at h
  case h_3 => cases h
  all_goals
    next hn =>
      cases h
      exact formatI_of_fieldNN hop hn

theorem encode_of_decodeMisc {w : Word} {i : Instr} (hop : fieldOp w = 0xF) (h : decodeMisc w = .ok i) :
    encode i = w := by
  unfold decodeMisc at h
  split at h
  case h_10 => cases h
  all_goals
    next hn =>
      cases h
      exact formatI_of_fieldNN hop hn

/-- By the family of the word, which is the decoder's own first split. -/
theorem encode_of_decodeWord {w : Word} {i : Instr} (h : decodeWord w = .ok i) : encode i = w := by
  unfold decodeWord at h
  split at h
  case h_1 =>
    split at h
    case isTrue hw => cases h; exact hw.symm
    case isFalse =>
      split at h
      case isTrue hw => cases h; exact hw.symm
      case isFalse => cases h
  case h_6 hop | h_10 hop =>
    split at h
    case isTrue hn => cases h; exact formatR_of_fieldN hop hn
    case isFalse => cases h
  case h_9 hop => exact encode_of_decodeAlu hop h
  case h_14 hop => cases h; exact formatR_of_fieldOp hop
  case h_15 hop => exact encode_of_decodeKey hop h
  case h_16 hop => exact encode_of_decodeMisc hop h
  case h_17 => cases h
  case h_2 hop | h_3 hop | h_11 hop | h_12 hop => cases h; exact formatA_of_fieldOp hop
  case h_4 hop | h_5 hop | h_7 hop | h_8 hop | h_13 hop => cases h; exact formatI_of_fieldOp hop

/-- The two directions together: each instruction has one word and each instruction word one instruction. -/
theorem decodeWord_eq_ok_iff {w : Word} {i : Instr} : decodeWord w = .ok i ↔ encode i = w :=
  ⟨encode_of_decodeWord, fun h => h ▸ decodeWord_encode i⟩

/-! ### The opcode map (R55) -/

section

variable {w p : Word} {op n : Nibble} {nn : Byte}

/-- A word that matches a row's mask is built from the row's fixed fields and its own free ones: a row's pattern is its
layout with zeros in the free fields (R51, R54). One rule per mask and layout. -/
theorem formatA_of_mask (h : w &&& 0xF000#16 = formatA op 0) : formatA op (fieldNNN w) = w := by
  rw [← formatA_fields w, Laws.RowOfEncoding.formatA_masked, ← formatA] at h
  exact formatA_of_fieldOp (by simpa using congrArg fieldOp h)

theorem formatI_of_mask (h : w &&& 0xF000#16 = formatI op 0 0) : formatI op (fieldX w) (fieldNN w) = w := by
  rw [← formatI_fields w, Laws.RowOfEncoding.formatI_masked] at h
  have kept : formatI (fieldOp w) 0 0 = formatI op 0 0 := h
  exact formatI_of_fieldOp (by simpa using congrArg fieldOp kept)

theorem formatD_of_mask (h : w &&& 0xF000#16 = formatR op 0 0 0) :
    formatR op (fieldX w) (fieldY w) (fieldN w) = w := by
  rw [← formatR_fields w, Laws.RowOfEncoding.formatD_masked] at h
  have kept : formatR (fieldOp w) 0 0 0 = formatR op 0 0 0 := h
  exact formatR_of_fieldOp (by simpa using congrArg fieldOp kept)

theorem formatR_of_mask (h : w &&& 0xF00F#16 = formatR op 0 0 n) : formatR op (fieldX w) (fieldY w) n = w := by
  rw [← formatR_fields w, Laws.RowOfEncoding.formatR_masked] at h
  have kept : formatR (fieldOp w) 0 0 (fieldN w) = formatR op 0 0 n := h
  exact formatR_of_fieldN (by simpa using congrArg fieldOp kept) (by simpa using congrArg fieldN kept)

theorem formatS_of_mask (h : w &&& 0xF0FF#16 = formatI op 0 nn) : formatI op (fieldX w) nn = w := by
  rw [← formatI_fields w, Laws.RowOfEncoding.formatS_masked] at h
  have kept : formatI (fieldOp w) 0 (fieldNN w) = formatI op 0 nn := h
  exact formatI_of_fieldNN (by simpa using congrArg fieldOp kept) (by simpa using congrArg fieldNN kept)

theorem eq_of_fullMask (h : w &&& 0xFFFF#16 = p) : p = w := h.symm.trans (BitVec.and_allOnes (x := w))

end

/-- The instruction of a row that a word stands for. -/
def IsInstrOfRow (w : Word) (r : OpcodeRow) (i : Instr) : Prop := encode i = w ∧ i.row = r

theorem exists_instrOfRow_plain {w : Word} {r : OpcodeRow} (hr : r ∈ opcodeMapPlain)
    (h : w &&& r.mask = r.pattern) : ∃ i, IsInstrOfRow w r i := by
  simp only [opcodeMapPlain, List.mem_cons, List.not_mem_nil, or_false] at hr
  rcases hr with rfl | rfl | rfl | rfl | rfl | rfl | rfl | rfl | rfl | rfl
  · exact ⟨.cls, eq_of_fullMask h, rfl⟩
  · exact ⟨.ret, eq_of_fullMask h, rfl⟩
  · exact ⟨.jp _, formatA_of_mask h, rfl⟩
  · exact ⟨.call _, formatA_of_mask h, rfl⟩
  · exact ⟨.seImm _ _, formatI_of_mask h, rfl⟩
  · exact ⟨.sneImm _ _, formatI_of_mask h, rfl⟩
  · exact ⟨.seReg _ _, formatR_of_mask h, rfl⟩
  · exact ⟨.sneReg _ _, formatR_of_mask h, rfl⟩
  · exact ⟨.ldImm _ _, formatI_of_mask h, rfl⟩
  · exact ⟨.addImm _ _, formatI_of_mask h, rfl⟩

theorem exists_instrOfRow_alu {w : Word} {r : OpcodeRow} (hr : r ∈ opcodeMapAlu)
    (h : w &&& r.mask = r.pattern) : ∃ i, IsInstrOfRow w r i := by
  simp only [opcodeMapAlu, List.mem_cons, List.not_mem_nil, or_false] at hr
  rcases hr with rfl | rfl | rfl | rfl | rfl | rfl | rfl | rfl | rfl
  · exact ⟨.ldReg _ _, formatR_of_mask h, rfl⟩
  · exact ⟨.orReg _ _, formatR_of_mask h, rfl⟩
  · exact ⟨.andReg _ _, formatR_of_mask h, rfl⟩
  · exact ⟨.xorReg _ _, formatR_of_mask h, rfl⟩
  · exact ⟨.addReg _ _, formatR_of_mask h, rfl⟩
  · exact ⟨.subReg _ _, formatR_of_mask h, rfl⟩
  · exact ⟨.shr _ _, formatR_of_mask h, rfl⟩
  · exact ⟨.subn _ _, formatR_of_mask h, rfl⟩
  · exact ⟨.shl _ _, formatR_of_mask h, rfl⟩

theorem exists_instrOfRow_rest {w : Word} {r : OpcodeRow} (hr : r ∈ opcodeMapRest)
    (h : w &&& r.mask = r.pattern) : ∃ i, IsInstrOfRow w r i := by
  simp only [opcodeMapRest, List.mem_cons, List.not_mem_nil, or_false] at hr
  rcases hr with rfl | rfl | rfl | rfl | rfl | rfl | rfl | rfl | rfl | rfl | rfl | rfl | rfl | rfl | rfl
  · exact ⟨.ldI _, formatA_of_mask h, rfl⟩
  · exact ⟨.jpV0 _, formatA_of_mask h, rfl⟩
  · exact ⟨.rnd _ _, formatI_of_mask h, rfl⟩
  · exact ⟨.drw _ _ _, formatD_of_mask h, rfl⟩
  · exact ⟨.skp _, formatS_of_mask h, rfl⟩
  · exact ⟨.sknp _, formatS_of_mask h, rfl⟩
  · exact ⟨.ldVxDt _, formatS_of_mask h, rfl⟩
  · exact ⟨.ldVxK _, formatS_of_mask h, rfl⟩
  · exact ⟨.ldDtVx _, formatS_of_mask h, rfl⟩
  · exact ⟨.ldStVx _, formatS_of_mask h, rfl⟩
  · exact ⟨.addIVx _, formatS_of_mask h, rfl⟩
  · exact ⟨.ldFVx _, formatS_of_mask h, rfl⟩
  · exact ⟨.ldBVx _, formatS_of_mask h, rfl⟩
  · exact ⟨.ldMemVx _, formatS_of_mask h, rfl⟩
  · exact ⟨.ldVxMem _, formatS_of_mask h, rfl⟩

/-- A word that matches a row is the word of an instruction of that row. -/
theorem exists_instrOfRow {w : Word} {r : OpcodeRow} (hr : r ∈ opcodeMap) (h : r.accepts w = true) :
    ∃ i, IsInstrOfRow w r i := by
  have masked : w &&& r.mask = r.pattern := eq_of_beq h
  rcases List.mem_append.1 hr with hr | hr
  · rcases List.mem_append.1 hr with hr | hr
    · exact exists_instrOfRow_plain hr masked
    · exact exists_instrOfRow_alu hr masked
  · exact exists_instrOfRow_rest hr masked

theorem rowIndex_lt (i : Instr) : i.rowIndex < opcodeMap.length := by
  have rows : opcodeMap.length = 34 := rfl
  rw [rows]
  cases i <;> simp [Instr.rowIndex]

theorem row_mem_opcodeMap (i : Instr) : i.row ∈ opcodeMap := by
  rw [Instr.row, List.getD_eq_getElem _ _ (rowIndex_lt i)]
  exact List.getElem_mem _

open Laws in
/-- An instruction's word matches the instruction's row (the per-instruction laws, put together). -/
theorem row_accepts_encode (i : Instr) : i.row.accepts (encode i) = true := by
  refine beq_iff_eq.2 ?_
  cases i
  case cls => exact RowOfEncoding.cls
  case ret => exact RowOfEncoding.ret
  case jp nnn => exact RowOfEncoding.jp nnn
  case call nnn => exact RowOfEncoding.call nnn
  case seImm x nn => exact RowOfEncoding.seImm x nn
  case sneImm x nn => exact RowOfEncoding.sneImm x nn
  case seReg x y => exact RowOfEncoding.seReg x y
  case sneReg x y => exact RowOfEncoding.sneReg x y
  case ldImm x nn => exact RowOfEncoding.ldImm x nn
  case addImm x nn => exact RowOfEncoding.addImm x nn
  case ldReg x y => exact RowOfEncoding.ldReg x y
  case orReg x y => exact RowOfEncoding.orReg x y
  case andReg x y => exact RowOfEncoding.andReg x y
  case xorReg x y => exact RowOfEncoding.xorReg x y
  case addReg x y => exact RowOfEncoding.addReg x y
  case subReg x y => exact RowOfEncoding.subReg x y
  case shr x y => exact RowOfEncoding.shr x y
  case subn x y => exact RowOfEncoding.subn x y
  case shl x y => exact RowOfEncoding.shl x y
  case ldI nnn => exact RowOfEncoding.ldI nnn
  case jpV0 nnn => exact RowOfEncoding.jpV0 nnn
  case rnd x nn => exact RowOfEncoding.rnd x nn
  case drw x y n => exact RowOfEncoding.drw x y n
  case skp x => exact RowOfEncoding.skp x
  case sknp x => exact RowOfEncoding.sknp x
  case ldVxDt x => exact RowOfEncoding.ldVxDt x
  case ldVxK x => exact RowOfEncoding.ldVxK x
  case ldDtVx x => exact RowOfEncoding.ldDtVx x
  case ldStVx x => exact RowOfEncoding.ldStVx x
  case addIVx x => exact RowOfEncoding.addIVx x
  case ldFVx x => exact RowOfEncoding.ldFVx x
  case ldBVx x => exact RowOfEncoding.ldBVx x
  case ldMemVx x => exact RowOfEncoding.ldMemVx x
  case ldVxMem x => exact RowOfEncoding.ldVxMem x

theorem wordWf_encode (i : Instr) : wordWf (encode i) = true :=
  List.any_eq_true.2 ⟨i.row, row_mem_opcodeMap i, row_accepts_encode i⟩

/-- A word outside the opcode map is unknown: were it decoded, it would be an encoding and so in the map. -/
theorem decodeWord_of_not_wordWf {w : Word} (h : wordWf w = false) : decodeWord w = .error (.unknownOpcode w) := by
  cases hd : decodeWord w with
  | ok i =>
    have := wordWf_encode i
    rw [encode_of_decodeWord hd, h] at this
    cases this
  | error e => rw [Machine.decodeWord_error hd]

/-! ### The unknown words (30_encoding section 7) -/

/-- The unused low nibbles of family 8. -/
theorem decodeAlu_eq_error_iff (w : Word) :
    decodeAlu w = .error (.unknownOpcode w) ↔ w.toNat % 16 ∈ [8, 9, 0xA, 0xB, 0xC, 0xD, 0xF] := by
  rw [← fieldN_toNat]
  unfold decodeAlu
  split
  case h_10 =>
    simp only [true_iff]
    generalize fieldN w = n at *
    revert n
    decide
  all_goals
    next hn => simp [hn]

/-- The unused low bytes of family E. -/
theorem decodeKey_eq_error_iff (w : Word) :
    decodeKey w = .error (.unknownOpcode w) ↔ w.toNat % 256 ∉ [0x9E, 0xA1] := by
  rw [← fieldNN_toNat]
  unfold decodeKey
  split
  case h_3 =>
    simp only [true_iff]
    generalize fieldNN w = nn at *
    revert nn
    decide
  all_goals
    next hn => simp [hn]

/-- The unused low bytes of family F. -/
theorem decodeMisc_eq_error_iff (w : Word) :
    decodeMisc w = .error (.unknownOpcode w) ↔
      w.toNat % 256 ∉ [0x07, 0x0A, 0x15, 0x18, 0x1E, 0x29, 0x33, 0x55, 0x65] := by
  rw [← fieldNN_toNat]
  unfold decodeMisc
  split
  case h_10 =>
    simp only [true_iff]
    generalize fieldNN w = nn at *
    revert nn
    decide
  all_goals
    next hn => simp [hn]

/-! ### The obligations -/

/-- Settles O1, by the encoder's cases. -/
theorem decodeOfEncodeIsSame : Obligations.DecodeOfEncodeIsSame := decodeWord_encode

/-- Settles O2, by the decoder's families. -/
theorem encodeOfDecodeIsSame : Obligations.EncodeOfDecodeIsSame := fun _ _ => encode_of_decodeWord

/-- Settles O3: a word that matches a row is an encoding of the row, which O1 decodes; a word that decodes is an
encoding, which matches its own row. -/
theorem decodeFollowsOpcodeMap : Obligations.DecodeFollowsOpcodeMap := by
  intro w
  refine ⟨fun r hr haccepts => ?_, decodeWord_of_not_wordWf⟩
  obtain ⟨i, word, row⟩ := exists_instrOfRow hr haccepts
  exact ⟨i, decodeWord_eq_ok_iff.2 word, row⟩

/-- Settles O4: in a family with a second key by that key, in the others no word is unknown. -/
theorem unknownWordsByFamily : Obligations.UnknownWordsByFamily := by
  intro w
  have family : (fieldOp w).toNat = w.toNat / 0x1000 := fieldOp_toNat w
  have family0 : w.toNat < 0x1000 ↔ w.toNat / 0x1000 = 0 := by omega
  rw [family0, ← family, ← decodeAlu_eq_error_iff, ← decodeKey_eq_error_iff, ← decodeMisc_eq_error_iff,
    ← fieldN_toNat]
  unfold decodeWord
  split
  case h_1 hop =>
    simp only [hop, ← BitVec.toNat_inj]
    by_cases h1 : w.toNat = 0x00E0
    · simp [h1]
    · by_cases h2 : w.toNat = 0x00EE
      · simp [h2]
      · simp [h1, h2]
  case h_6 hop | h_10 hop =>
    have zero : (fieldN w).toNat = 0 ↔ fieldN w = 0#4 := BitVec.toNat_inj (y := 0#4)
    by_cases hn : fieldN w = 0#4
    · simp [hop, hn]
    · simp [hop, zero, hn]
  case h_17 =>
    exfalso
    clear family family0
    generalize fieldOp w = op at *
    revert op
    decide
  all_goals
    next hop => simp [hop]

/-- Settles O5, by decoding each word. -/
theorem sampleWordsDecode : Obligations.SampleWordsDecode := by
  unfold Obligations.SampleWordsDecode
  decide

end Sys2Proof
end

section
/-!
PROOFS. What an instruction answers, said once for all 34: the state its own effect leaves where its check does not
fail, the state of the error it takes where it does. With the frame, the error record, PC and VF after each, and the
statements about every instruction (60_exceptions sections 2 and 3, 10_state sections 2, 4, 10 and 14).
-/

namespace Sys2Proof

open Sys2Proof.Machine

/-- The state an instruction leaves when its check does not fail (tied to the model by `exec_of_fits`). -/
def Instr.effect (i : Instr) (s : State) : State :=
  match i with
  | .cls => { s with fb := Frame.clear }.advance
  | .ret => { s with stack := s.stack.tail }.jump (s.stack.headD s.pc)
  | .jp nnn => s.jump (addr16 nnn)
  | .call nnn => { s with stack := (s.pc + 2) :: s.stack }.jump (addr16 nnn)
  | .seImm x nn => s.skipIf (s.getV x == nn)
  | .sneImm x nn => s.skipIf (s.getV x != nn)
  | .seReg x y => s.skipIf (s.getV x == s.getV y)
  | .sneReg x y => s.skipIf (s.getV x != s.getV y)
  | .ldImm x nn => (s.setV x nn).advance
  | .addImm x nn => (s.setV x (s.getV x + nn)).advance
  | .ldReg x y => (s.setV x (s.getV y)).advance
  | .orReg x y => (s.setV x (s.getV x ||| s.getV y)).advance
  | .andReg x y => (s.setV x (s.getV x &&& s.getV y)).advance
  | .xorReg x y => (s.setV x (s.getV x ^^^ s.getV y)).advance
  | .addReg x y => (s.setResultFlag x (s.getV x + s.getV y) (carryOut (s.getV x) (s.getV y))).advance
  | .subReg x y => (s.setResultFlag x (s.getV x - s.getV y) (noBorrow (s.getV x) (s.getV y))).advance
  | .shr x y => (s.setResultFlag x (s.shiftOperand Config.shiftSource x y >>> 1)
      (outRight (s.shiftOperand Config.shiftSource x y))).advance
  | .subn x y => (s.setResultFlag x (s.getV y - s.getV x) (noBorrow (s.getV y) (s.getV x))).advance
  | .shl x y => (s.setResultFlag x (s.shiftOperand Config.shiftSource x y <<< 1)
      (outLeft (s.shiftOperand Config.shiftSource x y))).advance
  | .ldI nnn => { s with i := addr16 nnn }.advance
  | .jpV0 nnn => s.jump (s.offsetTarget nnn)
  | .rnd x nn => { s.setV x (s.rand8 &&& nn) with draws := s.draws + 1 }.advance
  | .drw x y n => (s.drawn x y n).advance
  | .skp x => s.skipIf (s.key (s.lowNibble x))
  | .sknp x => s.skipIf (!s.key (s.lowNibble x))
  | .ldVxDt x => (s.setV x s.dt).advance
  | .ldVxK x => { s with wait := some x }
  | .ldDtVx x => { s with dt := s.getV x }.advance
  | .ldStVx x => { s with st := s.getV x }.advance
  | .addIVx x => { s with i := BitVec.ofNat 16 (s.indexSum x % 4096) }.advance
  | .ldFVx x => { s with i := glyphAddr (s.lowNibble x) }.advance
  | .ldBVx x => { s with mem := s.mem.writeBytes s.i.toNat (bcdDigits (s.getV x)) }.advance
  | .ldMemVx x => { s with mem := s.mem.writeBytes s.i.toNat (s.regsUpTo x) }.advance
  | .ldVxMem x => { s with v := s.regsLoaded x s.i.toNat }.advance

/-- The state an instruction leaves when its check fails (R152, R153; tied to the model by `exec_of_checkFails`). -/
def Instr.failure (i : Instr) (s : State) : State :=
  match i with
  | .ret => s.raise .stackError (encode i) 0
  | .call _ => s.raise .stackError (encode i) 0
  | _ => s.raise .memoryBoundsError (encode i) (BitVec.ofNat 16 (max s.i.toNat 4096))

/-- The two instructions that store to memory (R113, R114). -/
def Instr.isStore : Instr → Bool
  | .ldBVx _ => true
  | .ldMemVx _ => true
  | _ => false

end Sys2Proof

namespace Sys2Proof.Machine

/-! ### What `exec` answers -/

theorem State.sp_eq_zero_iff (s : State) : s.sp = 0 ↔ s.stack = [] := List.length_eq_zero_iff

/-- Everything an instruction can do (R38, R155): its effect where its check does not fail, else the error. -/
theorem exec_cases (i : Instr) (s : State) :
    (¬ i.CheckFails s ∧ exec i s = .next (i.effect s)) ∨ (i.CheckFails s ∧ exec i s = .next (i.failure s)) := by
  cases i
  case ret =>
    rcases execRet_cases s with ⟨empty, h⟩ | ⟨a, rest, top, h⟩
    · exact .inr ⟨s.sp_eq_zero_iff.2 empty, h⟩
    · refine .inl ⟨fun h0 => ?_, ?_⟩
      · have empty := s.sp_eq_zero_iff.1 h0
        rw [top] at empty
        cases empty
      · rw [h, Instr.effect, top]; rfl
  case call nnn =>
    rcases execCall_cases nnn s with ⟨room, h⟩ | ⟨full, h⟩
    · exact .inl ⟨Nat.not_le.2 room, h⟩
    · exact .inr ⟨full, h⟩
  case drw x y n =>
    rcases execDrw_cases x y n s with ⟨fits, h⟩ | ⟨drawn, beyond, h⟩
    · exact .inl ⟨fun ⟨h0, h1⟩ => by omega, h⟩
    · exact .inr ⟨⟨drawn, beyond⟩, h⟩
  case ldBVx x =>
    rcases execLdBVx_cases x s with ⟨fits, h⟩ | ⟨beyond, h⟩
    · exact .inl ⟨Nat.not_le.2 fits, h⟩
    · exact .inr ⟨beyond, h⟩
  case ldMemVx x =>
    rcases execLdMemVx_cases x s with ⟨fits, h⟩ | ⟨beyond, h⟩
    · exact .inl ⟨Nat.not_le.2 fits, h⟩
    · exact .inr ⟨beyond, h⟩
  case ldVxMem x =>
    rcases execLdVxMem_cases x s with ⟨fits, h⟩ | ⟨beyond, h⟩
    · exact .inl ⟨Nat.not_le.2 fits, h⟩
    · exact .inr ⟨beyond, h⟩
  all_goals exact .inl ⟨id, rfl⟩

theorem exec_of_fits {i : Instr} {s : State} (h : ¬ i.CheckFails s) : exec i s = .next (i.effect s) := by
  rcases exec_cases i s with ⟨-, he⟩ | ⟨hf, -⟩
  · exact he
  · exact absurd hf h

theorem exec_of_checkFails {i : Instr} {s : State} (h : i.CheckFails s) : exec i s = .next (i.failure s) := by
  rcases exec_cases i s with ⟨hf, -⟩ | ⟨-, he⟩
  · exact absurd h hf
  · exact he

/-! ### The error taken -/

theorem failure_err_ne_none (i : Instr) (s : State) : (i.failure s).err.kind ≠ .none := by
  unfold Instr.failure
  split <;> nofun

theorem failure_err_pc (i : Instr) (s : State) : (i.failure s).err.pc = s.pc := by
  unfold Instr.failure
  split <;> rfl

theorem failure_err_opcode (i : Instr) (s : State) : (i.failure s).err.opcode = encode i := by
  unfold Instr.failure
  split <;> rfl

theorem onlyChanges_failure (i : Instr) (s : State) : OnlyChanges s (i.failure s) fun p => p = .err := by
  unfold Instr.failure
  split <;> exact onlyChanges_raise s _ _ _

/-! ### The effect -/

/-- `LD Vx, [I]` writes the register file and PC. Said with the file a variable: comparing the fields of the effect with
those of `s` would otherwise compute the sixteen registers loaded. -/
theorem effect_ldVxMem (x : RegIdx) (s : State) : ∃ v, (Instr.ldVxMem x).effect s = { s with v := v }.advance :=
  ⟨_, rfl⟩

@[simp] theorem effect_err (i : Instr) (s : State) : (i.effect s).err = s.err := by
  cases i
  case ldVxMem x =>
    obtain ⟨v, e⟩ := effect_ldVxMem x s
    rw [e]
    rfl
  all_goals rfl

/-- An instruction that answers a state with no error had its effect. -/
theorem eq_effect_of_exec {i : Instr} {s t : State} (h : exec i s = .next t) (ht : t.err.kind = .none) :
    ¬ i.CheckFails s ∧ t = i.effect s := by
  rcases exec_cases i s with ⟨fits, he⟩ | ⟨-, he⟩ <;> rw [he] at h <;> cases h
  · exact ⟨fits, rfl⟩
  · exact absurd ht (failure_err_ne_none i s)

/-- An instruction that answers a state with an error, from one without, took it. -/
theorem eq_failure_of_exec {i : Instr} {s t : State} (hs : s.err.kind = .none) (h : exec i s = .next t)
    (ht : t.err.kind ≠ .none) : i.CheckFails s ∧ t = i.failure s := by
  rcases exec_cases i s with ⟨-, he⟩ | ⟨fails, he⟩ <;> rw [he] at h <;> cases h
  · rw [effect_err] at ht
    exact absurd hs ht
  · exact ⟨fails, rfl⟩

/-- The two frames in sequence: a flag writer's two registers, then the move of PC. -/
theorem onlyChanges_setResultFlag_advance (s : State) (x : RegIdx) (r : Byte) (c : Bool) :
    OnlyChanges s (s.setResultFlag x r c).advance fun p => p = .pc ∨ p = .reg x ∨ p = .reg 15 :=
  ((onlyChanges_setResultFlag s x r c).mono fun _ h => .inr h).trans
    ((onlyChanges_advance _).mono fun _ h => .inl h)

/-- A call or a return changes the stack, then jumps. -/
theorem onlyChanges_stack_jump (s : State) (l : List Word) (a : Word) :
    OnlyChanges s ({ s with stack := l }.jump a) fun p => p = .pc ∨ p = .stack := by
  intro p hp
  cases p
  case pc => exact absurd (.inl rfl) hp
  case stack => exact absurd (.inr rfl) hp
  all_goals exact Eq.refl _

theorem onlyChanges_dt_advance (s : State) (b : Byte) :
    OnlyChanges s { s with dt := b }.advance fun p => p = .pc ∨ p = .dt := by
  intro p hp
  cases p
  case pc => exact absurd (.inl rfl) hp
  case dt => exact absurd (.inr rfl) hp
  all_goals exact Eq.refl _

theorem onlyChanges_st_advance (s : State) (b : Byte) :
    OnlyChanges s { s with st := b }.advance fun p => p = .pc ∨ p = .st := by
  intro p hp
  cases p
  case pc => exact absurd (.inl rfl) hp
  case st => exact absurd (.inr rfl) hp
  all_goals exact Eq.refl _

theorem onlyChanges_wait (s : State) (w : Option RegIdx) :
    OnlyChanges s { s with wait := w } fun p => p = .wait := by
  intro p hp
  cases p
  case wait => exact absurd rfl hp
  all_goals exact Eq.refl _

theorem onlyChanges_draws (s : State) (n : Nat) : OnlyChanges s { s with draws := n } fun p => p = .draws := by
  intro p hp
  cases p
  case draws => exact absurd rfl hp
  all_goals exact Eq.refl _

/-- A draw changes its destination and the count of draws, then PC moves. -/
theorem onlyChanges_rnd (s : State) (x : RegIdx) (b : Byte) (n : Nat) :
    OnlyChanges s { s.setV x b with draws := n }.advance fun p => p = .pc ∨ p = .reg x ∨ p = .draws :=
  (((onlyChanges_setV s x b).mono fun _ h => .inr (.inl h)).trans
    ((onlyChanges_draws _ n).mono fun _ h => .inr (.inr h))).trans
    ((onlyChanges_advance _).mono fun _ h => .inl h)

/-- A drawn sprite changes pixels, then VF, then PC. -/
theorem onlyChanges_drawn_advance (s : State) (x y : RegIdx) (n : Nibble) :
    OnlyChanges s (s.drawn x y n).advance fun p => p = .pc ∨ p = .reg 15 ∨ p.IsPixel :=
  (((onlyChanges_fb s _).mono fun _ h => .inr (.inr h)).trans
    ((onlyChanges_setV _ 15 _).mono fun _ h => .inr (.inl h))).trans
    ((onlyChanges_advance _).mono fun _ h => .inl h)

/-- A store of bytes in range, then the move of PC. -/
theorem onlyChanges_writeBytes_advance {s : State} {a n : Nat} {bs : List Byte} (hm : s.mem.wf)
    (hn : bs.length = n) (ha : a + n ≤ 4096) :
    OnlyChanges s { s with mem := s.mem.writeBytes a bs }.advance fun p => p = .pc ∨ p.InBytes a n := by
  subst hn
  exact ((onlyChanges_writeBytes s a bs hm ha).mono fun _ h => .inr h).trans
    ((onlyChanges_advance _).mono fun _ h => .inl h)

theorem onlyChanges_regsLoaded_advance (s : State) (x : RegIdx) (a : Nat) :
    OnlyChanges s { s with v := s.regsLoaded x a }.advance fun p => p = .pc ∨ p.InRegs x :=
  ((onlyChanges_regsLoaded s x a).mono fun _ h => .inr h).trans
    ((onlyChanges_advance _).mono fun _ h => .inl h)

/-- The frame of every effect (R25). The canonical form is used by the stores alone. -/
theorem onlyChanges_effect {i : Instr} {s : State} (fits : ¬ i.CheckFails s) (hm : i.isStore = true → s.mem.wf) :
    OnlyChanges s (i.effect s) (i.MayWrite s) := by
  cases i
  case cls => exact onlyChanges_fb_advance s _
  case ret => exact onlyChanges_stack_jump s _ _
  case call nnn => exact onlyChanges_stack_jump s _ _
  case jp | jpV0 => exact onlyChanges_jump s _
  case seImm | sneImm | seReg | sneReg | skp | sknp => exact onlyChanges_skipIf s _
  case ldImm | addImm | ldReg | orReg | andReg | xorReg | ldVxDt => exact onlyChanges_setV_advance s _ _
  case addReg | subReg | shr | subn | shl => exact onlyChanges_setResultFlag_advance s _ _ _
  case ldI | addIVx | ldFVx => exact onlyChanges_index_advance s _
  case rnd => exact onlyChanges_rnd s _ _ _
  case drw => exact onlyChanges_drawn_advance s _ _ _
  case ldVxK => exact onlyChanges_wait s _
  case ldDtVx => exact onlyChanges_dt_advance s _
  case ldStVx => exact onlyChanges_st_advance s _
  case ldBVx x =>
    have inRange : s.i.toNat + 2 < 4096 := Nat.not_le.1 fits
    exact onlyChanges_writeBytes_advance (hm rfl) (length_bcdDigits _) (by omega)
  case ldMemVx x =>
    have inRange : s.i.toNat + x.val < 4096 := Nat.not_le.1 fits
    exact onlyChanges_writeBytes_advance (hm rfl) (s.length_regsUpTo x) (by omega)
  case ldVxMem => exact onlyChanges_regsLoaded_advance s _ _

/-- The stores write no register. -/
theorem getV_effect_of_isStore {i : Instr} (h : i.isStore = true) (s : State) (r : RegIdx) :
    (i.effect s).getV r = s.getV r := by
  cases i
  case ldBVx | ldMemVx => rfl
  all_goals cases h

/-- A register that an instruction may not write keeps its value, whatever the memory. -/
theorem getV_effect {i : Instr} {s : State} {r : RegIdx} (fits : ¬ i.CheckFails s) (h : ¬ i.MayWrite s (.reg r)) :
    (i.effect s).getV r = s.getV r := by
  cases hstore : i.isStore
  · exact onlyChanges_effect fits (by simp [hstore]) (.reg r) h
  · exact getV_effect_of_isStore hstore s r

/-- VF after a flag writer is a flag (R11). -/
theorem vf_effect_of_isFlagWriter {i : Instr} (h : i.isFlagWriter = true) (s : State) :
    (i.effect s).getV 15 = 0 ∨ (i.effect s).getV 15 = 1 := by
  cases i
  case addReg | subReg | shr | subn | shl =>
    simp only [Instr.effect, State.getV_advance, State.getV_setResultFlag, if_pos]
    exact flagByte_eq _
  case drw =>
    simp only [Instr.effect, State.drawn, State.getV_advance, State.getV_setV, if_pos]
    exact flagByte_eq _
  all_goals cases h

/-- At a fetchable PC neither the next instruction's address nor a skip's overflows (R13). -/
theorem toNat_pc_add_two {a : Word} (h : a.toNat < 4095) : (a + 2).toNat = a.toNat + 2 := by
  rw [BitVec.toNat_add]
  show (a.toNat + 2) % 65536 = _
  omega

theorem toNat_pc_add_four {a : Word} (h : a.toNat < 4095) : (a + 4).toNat = a.toNat + 4 := by
  rw [BitVec.toNat_add]
  show (a.toNat + 4) % 65536 = _
  omega

theorem State.toNat_pc_skipIf {s : State} (h : s.pc.toNat < 4095) (c : Bool) :
    (s.skipIf c).pc.toNat = if c then s.pc.toNat + 4 else s.pc.toNat + 2 := by
  cases c
  · exact toNat_pc_add_two h
  · exact toNat_pc_add_four h

/-- The top entry, as the model's list holds it (R14). -/
theorem State.stackEntry_top {s : State} {a : Word} {rest : List Word} (h : s.stack = a :: rest) :
    s.stackEntry (s.sp - 1) = some a := by
  simp [State.stackEntry, State.sp, h]

/-- The table of R71. -/
theorem pc_effect {i : Instr} {s : State} (h : s.pc.toNat < 4095) (fits : ¬ i.CheckFails s) :
    (i.effect s).pc.toNat = i.pcAfter s := by
  cases i
  case jp nnn => exact addr16_toNat nnn
  case call nnn => exact addr16_toNat nnn
  case jpV0 nnn => exact s.offsetTarget_toNat nnn
  case ret =>
    obtain ⟨a, rest, top⟩ := List.exists_cons_of_ne_nil fun empty => fits (s.sp_eq_zero_iff.2 empty)
    simp [Instr.effect, Instr.pcAfter, State.stackEntry_top top, top]
  case seImm | sneImm | seReg | sneReg | skp | sknp =>
    rw [Instr.effect, State.toNat_pc_skipIf h]
    simp [Instr.pcAfter]
  case ldVxK => rfl
  case ldVxMem x =>
    obtain ⟨v, e⟩ := effect_ldVxMem x s
    rw [e]
    exact toNat_pc_add_two h
  all_goals exact toNat_pc_add_two h

/-! ### The timers and the instructions (60_exceptions section 6) -/

/-- No check looks at a timer. -/
theorem checkFails_timers (i : Instr) (s : State) (d b : Byte) :
    i.CheckFails { s with dt := d, st := b } = i.CheckFails s := by
  cases i <;> rfl

/-- Neither an effect nor a failure looks at ST: with another ST it is the same but for ST. -/
theorem effect_of_other_st (i : Instr) (s : State) (b : Byte) :
    { i.effect { s with st := b } with st := (i.effect s).st } = i.effect s := by
  cases i <;> rfl

theorem failure_of_other_st (i : Instr) (s : State) (b : Byte) :
    { i.failure { s with st := b } with st := (i.failure s).st } = i.failure s := by
  cases i <;> rfl

/-- An instruction that accesses no timer has the same effect with other timers, and leaves them. -/
theorem effect_timers {i : Instr} (h : ∀ x, i ≠ .ldVxDt x ∧ i ≠ .ldDtVx x ∧ i ≠ .ldStVx x) (s : State)
    (d b : Byte) : i.effect { s with dt := d, st := b } = { i.effect s with dt := d, st := b } ∧
      (i.effect s).dt = s.dt ∧ (i.effect s).st = s.st := by
  cases i
  case ldVxDt x => exact absurd rfl (h x).1
  case ldDtVx x => exact absurd rfl (h x).2.1
  case ldStVx x => exact absurd rfl (h x).2.2
  case ldVxMem x =>
    obtain ⟨v, e⟩ := effect_ldVxMem x s
    exact ⟨rfl, by rw [e]; rfl, by rw [e]; rfl⟩
  all_goals exact ⟨rfl, rfl, rfl⟩

/-- The tick of a core with no error (R161). -/
theorem timerTick_of_safe {s : State} (h : s.err.kind = .none) :
    timerTick s = { s with dt := countDown s.dt, st := countDown s.st } := by
  rw [timerTick, (State.not_halted_iff s).2 h]
  rfl

/-! ### The obligations -/

/-- Settles O49: the effect leaves ERR as it was, the failure never holds `none`. -/
theorem instructionErrsExactlyWhen : Obligations.InstructionErrsExactlyWhen := by
  intro i s t hs h
  constructor
  · exact fun ht => (eq_failure_of_exec hs h ht).1
  · exact fun fails ht => (eq_effect_of_exec h ht).1 fails

/-- Settles O50: the failure state, whose opcode is the encoding, which O1 decodes. -/
theorem errorsArePrecise : Obligations.ErrorsArePrecise := by
  intro i s t hs h ht
  obtain ⟨-, rfl⟩ := eq_failure_of_exec hs h ht
  have frame := onlyChanges_failure i s
  refine ⟨failure_err_pc i s, frame .pc nofun, ?_, frame⟩
  rw [failure_err_opcode, decodeWord_encode]

/-- Settles O51: the frame of the effect, or of the failure. -/
theorem instructionWritesOnlyItsParts : Obligations.InstructionWritesOnlyItsParts := by
  intro i s t hm h
  rcases exec_cases i s with ⟨fits, he⟩ | ⟨-, he⟩ <;> rw [he] at h <;> cases h
  · exact (onlyChanges_effect fits fun _ => hm).mono fun _ => .inr
  · exact (onlyChanges_failure i s).mono fun _ => .inl

/-- Settles O52: the table, which the effect follows. -/
theorem programCounterTable : Obligations.ProgramCounterTable := by
  intro i s t hpc _ h ht
  obtain ⟨fits, rfl⟩ := eq_effect_of_exec h ht
  exact pc_effect hpc fits

/-- Settles O53: the flag is written last; the rest is the frame of the registers. -/
theorem flagRegisterDiscipline : Obligations.FlagRegisterDiscipline := by
  intro i s t _ h ht
  obtain ⟨fits, rfl⟩ := eq_effect_of_exec h ht
  exact ⟨fun flag => vf_effect_of_isFlagWriter flag s, fun _ hw => getV_effect fits hw⟩

/-- Settles O47: the tick writes the two timers, which the effect neither reads nor writes. -/
theorem tickCommutesWithInstruction : Obligations.TickCommutesWithInstruction := by
  intro i s t hi hs h ht
  obtain ⟨fits, rfl⟩ := eq_effect_of_exec h ht
  obtain ⟨same, hdt, hst⟩ := effect_timers hi s (countDown s.dt) (countDown s.st)
  rw [timerTick_of_safe hs, timerTick_of_safe ht, exec_of_fits (by rwa [checkFails_timers]), same, hdt, hst]

/-- Settles O48: neither the check nor the effect nor the failure looks at ST. -/
theorem soundTimerIsNeverRead : Obligations.SoundTimerIsNeverRead := by
  intro i s t b h
  have check := checkFails_timers i s s.dt b
  rcases exec_cases i s with ⟨fits, he⟩ | ⟨fails, he⟩ <;> rw [he] at h <;> cases h
  · exact ⟨_, exec_of_fits (check ▸ fits), effect_of_other_st i s b⟩
  · exact ⟨_, exec_of_checkFails (check ▸ fails), failure_of_other_st i s b⟩

end Sys2Proof.Machine
end

section
/-!
PROOFS. Control transfer (40_control), the rest: return, call, the skips on two registers and the jump with an offset,
each read off its effect or its failure.
-/

namespace Sys2Proof

/-- Families 5 and 9 have no instruction with a nonzero low nibble (R56). -/
theorem decodeWord_formatR_unknown {op n : Nibble} (x y : RegIdx) (hop : op = 0x5 ∨ op = 0x9) (hn : n ≠ 0) :
    decodeWord (formatR op x y n) = .error (.unknownOpcode (formatR op x y n)) := by
  have hn' : ¬ n = 0#4 := hn
  rcases hop with rfl | rfl <;> simp [decodeWord, hn']

end Sys2Proof

namespace Sys2Proof.Machine

/-! ### The stack (R14) -/

/-- The entries below a pushed one, and the pushed one itself. -/
theorem State.stackEntry_push {s t : State} {a : Word} (h : t.stack = a :: s.stack) :
    t.stackEntry s.sp = some a ∧ ∀ j, j < s.sp → t.stackEntry j = s.stackEntry j := by
  have length : s.stack.reverse.length = s.sp := List.length_reverse
  simp only [State.stackEntry, h, List.reverse_cons]
  constructor
  · rw [List.getElem?_append_right (by omega), length, Nat.sub_self]
    rfl
  · intro j hj
    exact List.getElem?_append_left (by omega)

/-- A nonempty stack passes the check of `RET`. -/
theorem not_checkFails_ret {s : State} {a : Word} {rest : List Word} (h : s.stack = a :: rest) :
    ¬ Instr.ret.CheckFails s := by
  intro empty
  rw [s.sp_eq_zero_iff.1 empty] at h
  cases h

/-- `RET` with a nonempty stack (R72). -/
theorem exec_ret_of_stack {s : State} {a : Word} {rest : List Word} (h : s.stack = a :: rest) :
    exec .ret s = .next ({ s with stack := rest }.jump a) := by
  rw [exec_of_fits (not_checkFails_ret h), Instr.effect, h]
  rfl

/-! ### The obligations -/

/-- Settles O12: the top entry becomes PC, or the failure is taken. -/
theorem returnPopsOrTakesStackError : Obligations.ReturnPopsOrTakesStackError := by
  intro s
  refine ⟨⟨decodeWord_encode .ret, rfl⟩, ?_, ?_⟩
  · intro a rest top
    refine ⟨_, exec_ret_of_stack top, State.stackEntry_top top, rfl, rfl, ?_, onlyChanges_stack_jump s _ _⟩
    simp [State.sp, top]
  · intro empty
    exact ⟨_, exec_of_checkFails (i := .ret) empty, rfl, onlyChanges_failure .ret s⟩

/-- Settles O14: the effect of the call, whose stack is the old one under the pushed entry. -/
theorem callPushesReturnAddress : Obligations.CallPushesReturnAddress := by
  intro nnn s room
  have fits : ¬ (Instr.call nnn).CheckFails s := Nat.not_le.2 room
  obtain ⟨pushed, below⟩ := State.stackEntry_push (s := s) (t := (Instr.call nnn).effect s) rfl
  exact ⟨_, exec_of_fits fits, pushed, rfl, below, addr16_toNat nnn, onlyChanges_effect fits nofun⟩

/-- Settles O15: the failures of the two instructions that check the stack. -/
theorem stackErrorRecords : Obligations.StackErrorRecords := by
  intro s
  constructor
  · intro nnn full
    exact ⟨_, exec_of_checkFails (i := .call nnn) full, rfl, onlyChanges_failure _ s⟩
  · intro empty
    exact ⟨_, exec_of_checkFails (i := .ret) empty, rfl, onlyChanges_failure _ s⟩

/-- Settles O17: each skip is `skipIf` on its comparison, as for the immediate ones. -/
theorem skipsOnRegisters : Obligations.SkipsOnRegisters := by
  intro x y s
  refine ⟨⟨_, exec_of_fits (i := .seReg x y) id, s.pc_skipIf_beq _ _, onlyChanges_skipIf s _⟩,
    ⟨_, exec_of_fits (i := .sneReg x y) id, s.pc_skipIf_bne _ _, onlyChanges_skipIf s _⟩, ?_⟩
  intro n hn
  exact ⟨decodeWord_formatR_unknown x y (.inl rfl) hn, decodeWord_formatR_unknown x y (.inr rfl) hn⟩

/-- Settles O18: the target is the whole sum. -/
theorem jumpWithOffset : Obligations.JumpWithOffset := by
  intro nnn s
  exact ⟨_, exec_of_fits (i := .jpV0 nnn) id, s.offsetTarget_toNat nnn, onlyChanges_jump s _⟩

/-- Settles O19: the return pops the entry that the call pushed, so that the two jumps leave PC alone changed. -/
theorem callThenReturnComesBack : Obligations.CallThenReturnComesBack := by
  intro nnn s t room h
  rw [exec_of_fits (i := .call nnn) (Nat.not_le.2 room)] at h
  cases h
  refine ⟨_, exec_ret_of_stack (a := s.pc + 2) (rest := s.stack) rfl, rfl, ?_⟩
  exact onlyChanges_jump s (s.pc + 2)

end Sys2Proof.Machine
end

section
/-!
PROOFS. Arithmetic (41_alu), the rest: the bitwise operations, and the five that write VF as a flag after their result.
-/

namespace Sys2Proof.Machine

/-! ### A result and a flag -/

/-- All that a flag writer does (R97 to R102): the flag is written last, so it wins where the destination is VF. -/
theorem aluFlag_spec {x : RegIdx} {r : Byte} {c : Bool} (s : State) :
    ∃ t, aluFlag x r c s = .next t ∧ (x ≠ 15 → t.getV x = r) ∧ t.getV 15 = flagByte c ∧
      t.pc = s.pc + 2 ∧ OnlyChanges s t fun p => p = .pc ∨ p = .reg x ∨ p = .reg 15 := by
  refine ⟨_, rfl, fun hx => ?_, ?_, rfl, onlyChanges_setResultFlag_advance s x r c⟩
  · simp [hx]
  · simp

theorem flagByte_decide (p : Prop) [Decidable p] : flagByte (decide p) = if p then 1 else 0 := by
  by_cases h : p <;> simp [flagByte, h]

/-- A difference of bytes, as an integer modulo 256. -/
theorem toNat_sub_eq_emod (a b : Byte) : ((a - b).toNat : Int) = ((a.toNat : Int) - b.toNat) % 256 := by
  have := a.isLt
  have := b.isLt
  rw [BitVec.toNat_sub]
  omega

/-- The value shifted, by the open parameter (R99). -/
theorem State.shiftOperand_toNat (s : State) (src : Config.ShiftSource) (x y : RegIdx) :
    (s.shiftOperand src x y).toNat = if src = .x then (s.getV x).toNat else (s.getV y).toNat := by
  cases src <;> rfl

/-! ### The meanings (R94 to R101) -/

theorem exec_orReg (x y : RegIdx) (s : State) : exec (.orReg x y) s = aluPlain x (s.getV x ||| s.getV y) s := rfl

theorem exec_andReg (x y : RegIdx) (s : State) : exec (.andReg x y) s = aluPlain x (s.getV x &&& s.getV y) s := rfl

theorem exec_xorReg (x y : RegIdx) (s : State) : exec (.xorReg x y) s = aluPlain x (s.getV x ^^^ s.getV y) s := rfl

theorem exec_addReg (x y : RegIdx) (s : State) :
    exec (.addReg x y) s = aluFlag x (s.getV x + s.getV y) (carryOut (s.getV x) (s.getV y)) s := rfl

theorem exec_subReg (x y : RegIdx) (s : State) :
    exec (.subReg x y) s = aluFlag x (s.getV x - s.getV y) (noBorrow (s.getV x) (s.getV y)) s := rfl

theorem exec_subn (x y : RegIdx) (s : State) :
    exec (.subn x y) s = aluFlag x (s.getV y - s.getV x) (noBorrow (s.getV y) (s.getV x)) s := rfl

theorem exec_shr (x y : RegIdx) (s : State) :
    exec (.shr x y) s = aluFlag x (s.shiftOperand Config.shiftSource x y >>> 1)
      (outRight (s.shiftOperand Config.shiftSource x y)) s := rfl

theorem exec_shl (x y : RegIdx) (s : State) :
    exec (.shl x y) s = aluFlag x (s.shiftOperand Config.shiftSource x y <<< 1)
      (outLeft (s.shiftOperand Config.shiftSource x y)) s := rfl

/-! ### The obligations -/

/-- Settles O23: the register write with the operation's result, read bit by bit. -/
theorem logicalOperations : Obligations.LogicalOperations := by
  intro x y s
  rw [exec_orReg, exec_andReg, exec_xorReg]
  refine ⟨?_, ?_, ?_⟩
  · obtain ⟨t, next, result, rest⟩ := aluPlain_spec x (s.getV x ||| s.getV y) s
    exact ⟨t, next, fun k => by rw [result, BitVec.getLsbD_or], rest⟩
  · obtain ⟨t, next, result, rest⟩ := aluPlain_spec x (s.getV x &&& s.getV y) s
    exact ⟨t, next, fun k => by rw [result, BitVec.getLsbD_and], rest⟩
  · obtain ⟨t, next, result, rest⟩ := aluPlain_spec x (s.getV x ^^^ s.getV y) s
    exact ⟨t, next, fun k => by rw [result, BitVec.getLsbD_xor], rest⟩

/-- Settles O24: the flag writer with the sum and the carry. -/
theorem addWithCarryOut : Obligations.AddWithCarryOut := by
  intro x y s
  obtain ⟨t, next, result, flag, rest⟩ := aluFlag_spec s
  refine ⟨t, (exec_addReg x y s).trans next, fun hx => ?_, ?_, rest⟩
  · rw [result hx, BitVec.toNat_add]
  · rw [flag, carryOut_eq, flagByte_decide]

/-- Settles O25: the flag writer with the difference and its lack of a borrow, in the two orders. -/
theorem subtractBothOrders : Obligations.SubtractBothOrders := by
  intro x y s
  constructor
  · obtain ⟨t, next, result, flag, rest⟩ := aluFlag_spec s
    refine ⟨t, (exec_subReg x y s).trans next, fun hx => ?_, ?_, rest⟩
    · rw [result hx, toNat_sub_eq_emod]
    · rw [flag, noBorrow_eq, flagByte_decide]
  · obtain ⟨t, next, result, flag, rest⟩ := aluFlag_spec s
    refine ⟨t, (exec_subn x y s).trans next, fun hx => ?_, ?_, rest⟩
    · rw [result hx, toNat_sub_eq_emod]
    · rw [flag, noBorrow_eq, flagByte_decide]

/-- Settles O26: the flag writer with the shifted operand and the bit shifted out, for either source. -/
theorem shiftsByOne : Obligations.ShiftsByOne := by
  intro x y s a ha
  rw [← s.shiftOperand_toNat] at ha
  subst ha
  constructor
  · obtain ⟨t, next, result, flag, rest⟩ := aluFlag_spec s
    refine ⟨t, (exec_shr x y s).trans next, fun hx => ?_, ?_, rest⟩
    · rw [result hx, BitVec.toNat_ushiftRight, Nat.shiftRight_eq_div_pow, pow_one]
    · rw [flag, outRight_eq, flagByte_decide]
  · obtain ⟨t, next, result, flag, rest⟩ := aluFlag_spec s
    refine ⟨t, (exec_shl x y s).trans next, fun hx => ?_, ?_, rest⟩
    · rw [result hx, BitVec.toNat_shiftLeft, Nat.shiftLeft_eq, pow_one, Nat.mul_comm]
    · rw [flag, outLeft_eq, flagByte_decide]

end Sys2Proof.Machine
end

section
/-!
PROOFS. The index register, loads and stores (42_index_memory), the rest: I computed, the digits, the dump and the load
of registers, each in range, and the error of each out of range.
-/

namespace Sys2Proof.Machine

/-! ### What a store and a load leave -/

/-- A byte of a dump is the register that was stored there (R114). -/
theorem read_dump {x r : RegIdx} {s : State} (hm : s.mem.wf) (inRange : s.i.toNat + x.val < 4096) (hr : r ≤ x) :
    ((Instr.ldMemVx x).effect s).mem.read (s.i.toNat + r.val) = s.getV r := by
  have length : (s.regsUpTo x).length = x.val + 1 := s.length_regsUpTo x
  have below : r.val ≤ x.val := hr
  show (s.mem.writeBytes s.i.toNat (s.regsUpTo x)).read (s.i.toNat + r.val) = _
  rw [Memory.read_writeBytes _ hm (by omega), if_pos (by omega), Nat.add_sub_cancel_left,
    s.getD_regsUpTo x r hr]

/-- A byte of the digits stored by `LD B` (R113). -/
theorem read_digits {x : RegIdx} {s : State} (hm : s.mem.wf) (inRange : s.i.toNat + 2 < 4096) {k : Nat} (hk : k < 3) :
    ((Instr.ldBVx x).effect s).mem.read (s.i.toNat + k) = (bcdDigits (s.getV x)).getD k 0 := by
  have length : (bcdDigits (s.getV x)).length = 3 := length_bcdDigits _
  show (s.mem.writeBytes s.i.toNat (bcdDigits (s.getV x))).read (s.i.toNat + k) = _
  rw [Memory.read_writeBytes _ hm (by omega), if_pos (by omega), Nat.add_sub_cancel_left]

/-- A register that a load reaches is the byte at its place (R115). -/
theorem getV_load {x r : RegIdx} (s : State) (hr : r ≤ x) :
    ((Instr.ldVxMem x).effect s).getV r = s.mem.read (s.i.toNat + r.val) :=
  (s.getElem_regsLoaded x s.i.toNat r).trans (if_pos hr)

/-! ### The obligations -/

/-- Settles O28: the sum modulo 4096 fits in I. -/
theorem addToIndex : Obligations.AddToIndex := by
  intro x s
  refine ⟨_, exec_of_fits (i := .addIVx x) id, ?_, rfl, onlyChanges_index_advance s _⟩
  show (BitVec.ofNat 16 (s.indexSum x % 4096)).toNat = s.indexSum x % 4096
  rw [BitVec.toNat_ofNat]
  omega

/-- Settles O29: the glyph address of the low nibble. -/
theorem fontAddress : Obligations.FontAddress := by
  intro x s
  refine ⟨_, exec_of_fits (i := .ldFVx x) id, ?_, rfl, onlyChanges_index_advance s _⟩
  show (glyphAddr (s.lowNibble x)).toNat = _
  rw [glyphAddr_toNat, s.lowNibble_val]

/-- Settles O30: the three bytes stored are the digits, as numbers. -/
theorem storeDecimalDigits : Obligations.StoreDecimalDigits := by
  intro x s hm inRange
  have fits : ¬ (Instr.ldBVx x).CheckFails s := Nat.not_le.2 inRange
  obtain ⟨hundreds, tens, ones⟩ := bcdDigits_toNat (s.getV x)
  refine ⟨_, exec_of_fits fits, ?_, ?_, ?_, rfl, onlyChanges_effect fits fun _ => hm⟩
  · rw [← hundreds, ← read_digits hm inRange (by decide), Nat.add_zero]
  · rw [← tens, ← read_digits hm inRange (by decide)]
  · rw [← ones, ← read_digits hm inRange (by decide)]

/-- Settles O31: the effect of the dump. -/
theorem dumpRegisters : Obligations.DumpRegisters := by
  intro x s hm inRange
  have fits : ¬ (Instr.ldMemVx x).CheckFails s := Nat.not_le.2 inRange
  exact ⟨_, exec_of_fits fits, fun r hr => read_dump hm inRange hr, rfl, onlyChanges_effect fits fun _ => hm⟩

/-- Settles O32: the effect of the load. -/
theorem loadRegisters : Obligations.LoadRegisters := by
  intro x s inRange
  have fits : ¬ (Instr.ldVxMem x).CheckFails s := Nat.not_le.2 inRange
  exact ⟨_, exec_of_fits fits, fun r hr => getV_load s hr, rfl, onlyChanges_effect fits nofun⟩

/-- Settles O33: the failures of the four instructions that check addresses. -/
theorem outOfRangeTakesBoundsError : Obligations.OutOfRangeTakesBoundsError := by
  intro s x y
  refine ⟨fun h => ?_, fun h => ?_, fun h => ?_, fun n hn h => ?_⟩
  · exact ⟨_, exec_of_checkFails (i := .ldBVx x) h, rfl, onlyChanges_failure _ s⟩
  · exact ⟨_, exec_of_checkFails (i := .ldMemVx x) h, rfl, onlyChanges_failure _ s⟩
  · exact ⟨_, exec_of_checkFails (i := .ldVxMem x) h, rfl, onlyChanges_failure _ s⟩
  · exact ⟨_, exec_of_checkFails (i := .drw x y n) ⟨hn, h⟩, rfl, onlyChanges_failure _ s⟩

/-- Settles O34: the load reads, at the same I, the bytes that the dump stored. -/
theorem dumpThenLoadRoundTrip : Obligations.DumpThenLoadRoundTrip := by
  intro x s t u hm inRange h hmem hi
  rw [exec_of_fits (i := .ldMemVx x) (Nat.not_le.2 inRange)] at h
  cases h
  have index : u.i = s.i := hi
  have fits : ¬ (Instr.ldVxMem x).CheckFails u := Nat.not_le.2 (index ▸ inRange)
  refine ⟨_, exec_of_fits fits, fun r hr => ?_, onlyChanges_regsLoaded_advance u x _⟩
  rw [getV_load u hr, hmem, index, read_dump hm inRange hr]

/-- Settles O35: PC has moved to I, where the first two registers stand. -/
theorem storeIsSeenByNextFetch : Obligations.StoreIsSeenByNextFetch := by
  intro x s t hm two inRange next h
  rw [exec_of_fits (i := .ldMemVx x) (Nat.not_le.2 inRange)] at h
  cases h
  have pc : ((Instr.ldMemVx x).effect s).pc.toNat = s.i.toNat :=
    (toNat_pc_add_two (a := s.pc) (by omega)).trans next.symm
  have first := read_dump (r := 0) hm inRange (Fin.zero_le x)
  have second := read_dump (r := 1) hm inRange two
  rcases State.fetch_cases ((Instr.ldMemVx x).effect s) with ⟨-, hf⟩ | ⟨high, -⟩
  · rw [hf, pc]
    exact congrArg Except.ok (congrArg₂ wordOfBytes first second)
  · rw [pc] at high
    omega

end Sys2Proof.Machine
end

section
/-!
PROOFS. The display (43_display), the rest: a sprite drawn once, and the same sprite drawn twice.
-/

namespace Sys2Proof.Machine

/-! ### What a sprite drawn leaves -/

/-- The pixels of the sprite that `DRW` draws (R121). -/
def State.covers (s : State) (x y : RegIdx) (n : Nibble) (px : Fin 64) (py : Fin 32) : Bool :=
  spriteCovers (s.getV x) (s.getV y) (s.spriteBytes n) px py

/-- A set pixel is covered, so that `DRW` unsets it (R121). -/
def State.Collides (s : State) (x y : RegIdx) (n : Nibble) : Prop :=
  ∃ px py, s.covers x y n px py = true ∧ s.fb.pixel px py = true

theorem length_spriteBytes_le (s : State) (n : Nibble) : (s.spriteBytes n).length ≤ 32 := by
  have := n.isLt
  rw [length_spriteBytes]
  omega

/-- Every pixel XOR whether the sprite covers it. -/
theorem pixel_draw (x y : RegIdx) (n : Nibble) (s : State) (px : Fin 64) (py : Fin 32) :
    ((Instr.drw x y n).effect s).fb.pixel px py = (s.fb.pixel px py ^^ s.covers x y n px py) :=
  pixel_drawSprite s.fb _ _ _ (length_spriteBytes_le s n) px py

/-- VF is 1 exactly where a covered pixel was set. -/
theorem vf_draw (x y : RegIdx) (n : Nibble) (s : State) :
    (s.Collides x y n ∧ ((Instr.drw x y n).effect s).getV 15 = 1) ∨
      (¬ s.Collides x y n ∧ ((Instr.drw x y n).effect s).getV 15 = 0) := by
  have collision := hit_drawSprite s.fb (s.getV x) (s.getV y) _ (length_spriteBytes_le s n)
  have flag : ((Instr.drw x y n).effect s).getV 15 =
      flagByte (drawSprite .wrap s.fb (s.getV x) (s.getV y) (s.spriteBytes n)).2 := by
    simp only [Instr.effect, State.drawn, State.getV_advance, State.getV_setV, if_pos, Config.spriteEdge]
  cases hit : (drawSprite .wrap s.fb (s.getV x) (s.getV y) (s.spriteBytes n)).2
  · refine .inr ⟨fun covered => ?_, by rw [flag, hit]; rfl⟩
    rw [collision.2 covered] at hit
    cases hit
  · exact .inl ⟨collision.1 hit, by rw [flag, hit]; rfl⟩

/-- In range, or with no row to draw, the check passes (R121). -/
theorem not_checkFails_drw {x y : RegIdx} {n : Nibble} {s : State}
    (h : n.toNat = 0 ∨ s.i.toNat + n.toNat - 1 < 4096) : ¬ (Instr.drw x y n).CheckFails s := by
  rintro ⟨some_row, beyond⟩
  omega

end Sys2Proof.Machine

namespace Sys2Proof

open Sys2Proof.Machine

/-! ### The obligations -/

/-- Settles O37: the pixels and the flag of the effect. -/
theorem drawSprite : Obligations.DrawSprite := by
  intro x y n s inRange
  have fits : ¬ (Instr.drw x y n).CheckFails s := not_checkFails_drw inRange
  refine ⟨_, exec_of_fits fits, pixel_draw x y n s, fun hit => ?_, fun miss => ?_, rfl,
    onlyChanges_effect fits nofun⟩
  · rcases vf_draw x y n s with ⟨-, flag⟩ | ⟨clear, -⟩
    · exact flag
    · exact absurd hit clear
  · rcases vf_draw x y n s with ⟨⟨px, py, covered, set⟩, -⟩ | ⟨-, flag⟩
    · rw [miss px py covered] at set
      cases set
    · exact flag

/-- Settles O38: the second draw covers the same pixels, so each is XORed twice; it collides exactly where a covered
pixel is on after the first draw, which is where that draw turned one on. -/
theorem drawTwiceRestoresDisplay : Obligations.DrawTwiceRestoresDisplay := by
  intro x y n s t u inRange h hfb hmem hi hx hy
  rw [exec_of_fits (not_checkFails_drw inRange)] at h
  cases h
  have fits : ¬ (Instr.drw x y n).CheckFails u := not_checkFails_drw (hi ▸ inRange)
  have same : u.covers x y n = s.covers x y n := by
    funext px py
    rw [State.covers, State.covers, State.spriteBytes, State.spriteBytes, hx, hy, hmem, hi]
  have first : ∀ px py, u.fb.pixel px py = (s.fb.pixel px py ^^ s.covers x y n px py) := by
    rw [hfb]
    exact pixel_draw x y n s
  refine ⟨_, exec_of_fits fits, Frame.ext fun px py => ?_, ?_⟩
  · rw [pixel_draw, first, same, Bool.xor_assoc, Bool.xor_self, Bool.xor_false]
  · have turned_on : ∀ px py, (u.covers x y n px py = true ∧ u.fb.pixel px py = true) ↔
        (s.fb.pixel px py = false ∧ ((Instr.drw x y n).effect s).fb.pixel px py = true) := by
      intro px py
      rw [first, same, pixel_draw]
      cases s.fb.pixel px py <;> cases s.covers x y n px py <;> decide
    simp only [← turned_on]
    change _ ↔ u.Collides x y n
    rcases vf_draw x y n u with ⟨hit, flag⟩ | ⟨miss, flag⟩
    · exact iff_of_true flag hit
    · exact iff_of_false (by rw [flag]; decide) miss

end Sys2Proof
end

section
/-!
PROOFS. Random, timers and the key-wait (44_keypad_timers_random), the rest, and the tick (60_exceptions section 6).
-/

namespace Sys2Proof.Machine

/-! ### The tick (R161) -/

theorem onlyChanges_timers (s : State) (d b : Byte) :
    OnlyChanges s { s with dt := d, st := b } fun p => p = .dt ∨ p = .st := by
  intro p hp
  cases p
  case dt => exact absurd (.inl rfl) hp
  case st => exact absurd (.inr rfl) hp
  all_goals exact Eq.refl _

theorem timerTick_of_halted {s : State} (h : s.err.kind ≠ .none) : timerTick s = s :=
  if_pos ((State.halted_iff s).2 h)

/-- A tick changes the timers alone, on any core. -/
theorem onlyChanges_timerTick (s : State) : OnlyChanges s (timerTick s) fun p => p = .dt ∨ p = .st := by
  by_cases h : s.err.kind = .none
  · rw [timerTick_of_safe h]
    exact onlyChanges_timers s _ _
  · rw [timerTick_of_halted h]
    exact OnlyChanges.rfl

/-- A tick never raises the delay timer. -/
theorem timerTick_dt_le (s : State) : (timerTick s).dt.toNat ≤ s.dt.toNat := by
  by_cases h : s.err.kind = .none
  · rw [timerTick_of_safe h]
    exact (countDown_toNat s.dt).trans_le (Nat.sub_le _ _)
  · rw [timerTick_of_halted h]

/-! ### The obligations -/

/-- Settles O39: the register write with the masked draw. -/
theorem randomIsMasked : Obligations.RandomIsMasked := by
  intro x nn s
  have drawn : ((Instr.rnd x nn).effect s).getV x = Config.rnd s.draws &&& nn := by
    show (s.setV x (s.rand8 &&& nn)).getV x = _
    rw [State.getV_setV, if_pos rfl, State.rand8]
  refine ⟨_, exec_of_fits (i := .rnd x nn) id, drawn, fun k hk => ?_, rfl, rfl, onlyChanges_rnd s x _ _⟩
  rw [drawn, BitVec.getLsbD_and, hk, Bool.and_false]

/-- Settles O41: the register write with DT, which a tick never raises. -/
theorem readDelayTimer : Obligations.ReadDelayTimer := by
  intro x s
  have reads : ∀ (y : RegIdx) (u : State), ((Instr.ldVxDt y).effect u).getV y = u.dt := by
    intro y u
    simp [Instr.effect]
  refine ⟨⟨decodeWord_encode (.ldVxDt x), rfl⟩,
    ⟨_, exec_of_fits (i := .ldVxDt x) id, reads x s, rfl, onlyChanges_setV_advance s x _⟩, fun y => ?_⟩
  refine ⟨_, exec_of_fits (i := .ldVxDt y) id, ?_⟩
  rw [reads]
  exact timerTick_dt_le s

/-- Settles O42: the two writes, and the sound output as ST being nonzero. -/
theorem setTimers : Obligations.SetTimers := by
  intro x s
  refine ⟨⟨_, exec_of_fits (i := .ldDtVx x) id, rfl, rfl, onlyChanges_dt_advance s _⟩,
    ⟨_, exec_of_fits (i := .ldStVx x) id, rfl, ?_, rfl, onlyChanges_st_advance s _⟩⟩
  have sound : ((Instr.ldStVx x).effect s).sndOut = (s.getV x != 0) := rfl
  rw [sound, bne_iff_ne, ne_eq, ← BitVec.toNat_inj]
  rfl

/-- Settles O43: the latch is all that the key-wait writes. -/
theorem keyWaitArmsLatch : Obligations.KeyWaitArmsLatch := by
  intro x s
  exact ⟨_, exec_of_fits (i := .ldVxK x) id, rfl, rfl, onlyChanges_wait s _⟩

/-- Settles O45: the countdown of each timer. -/
theorem tickCountsDown : Obligations.TickCountsDown := by
  intro s
  refine ⟨fun h => ⟨?_, ?_, onlyChanges_timerTick s⟩, timerTick_of_halted⟩
  · rw [timerTick_of_safe h]
    exact countDown_toNat s.dt
  · rw [timerTick_of_safe h]
    exact countDown_toNat s.st

end Sys2Proof.Machine
end

section
/-!
PROOFS. The step and the agents (40_control section 1, 60_exceptions sections 1, 3, 6 and 7, 70_reset_and_hazards): what
a CPU step does on a running, a suspended and a halted core, and what each event of the host does.
-/

namespace Sys2Proof.Machine

variable {s t : State}

/-! ### The next event (R174) -/

theorem step_of_event {e : Event} {rest : List Event} (h : s.inputs = e :: rest) :
    step s = deliver e { s with inputs := rest } := by
  rw [step, cycle, h]

theorem step_of_no_event (h : s.inputs = []) (hs : s.err.kind = .none) : step s = cpuStep s := by
  rcases step_cases s with ⟨e, rest, he, -⟩ | ⟨-, halted, -⟩ | ⟨-, -, hstep⟩
  · rw [h] at he
    cases he
  · exact absurd hs halted
  · exact hstep

theorem step_of_no_event_halted (h : s.inputs = []) (hs : s.err.kind ≠ .none) :
    step s = .fault (.halted s.err.kind) := by
  rcases step_cases s with ⟨e, rest, he, -⟩ | ⟨-, -, hstep⟩ | ⟨-, safe, -⟩
  · rw [h] at he
    cases he
  · exact hstep
  · exact absurd safe hs

/-! ### The CPU step (R70, R156, R166) -/

theorem cpuStep_of_halted (h : s.err.kind ≠ .none) : cpuStep s = .next s :=
  if_pos ((State.halted_iff s).2 h)

theorem cpuStep_of_waiting {x : RegIdx} (h : s.err.kind = .none) (hw : s.wait = some x) : cpuStep s = .next s := by
  rw [cpuStep, (State.not_halted_iff s).2 h, hw]
  rfl

theorem cpuStep_of_running (h : s.Running) : cpuStep s = fetchDecodeExecute s := by
  obtain ⟨safe, awake⟩ := h
  rw [cpuStep, (State.not_halted_iff s).2 safe, awake]
  rfl

theorem State.fetch_of_lt (h : s.pc.toNat < 4095) : s.fetch = .ok (s.mem.word s.pc.toNat) := by
  rcases s.fetch_cases with ⟨-, hf⟩ | ⟨high, -⟩
  · exact hf
  · omega

theorem State.fetch_of_ge (h : 4095 ≤ s.pc.toNat) : s.fetch = .error (max s.pc.toNat 4096) := by
  rcases s.fetch_cases with ⟨low, -⟩ | ⟨-, hf⟩
  · omega
  · exact hf

theorem cpuStep_of_decoded {i : Instr} (hr : s.Running) (hpc : s.pc.toNat < 4095)
    (hd : decodeWord (s.mem.word s.pc.toNat) = .ok i) : cpuStep s = exec i s := by
  rw [cpuStep_of_running hr, fetchDecodeExecute, State.fetch_of_lt hpc]
  simp only [hd]

theorem cpuStep_of_unknown {e : DecodeError} (hr : s.Running) (hpc : s.pc.toNat < 4095)
    (hd : decodeWord (s.mem.word s.pc.toNat) = .error e) :
    cpuStep s = .next (s.raise .unknownOpcode (s.mem.word s.pc.toNat) 0) := by
  rw [cpuStep_of_running hr, fetchDecodeExecute, State.fetch_of_lt hpc]
  simp only [hd]

theorem cpuStep_of_outOfRange (hr : s.Running) (hpc : 4095 ≤ s.pc.toNat) :
    cpuStep s = .next (s.raise .memoryBoundsError 0 (BitVec.ofNat 16 (max s.pc.toNat 4096))) := by
  rw [cpuStep_of_running hr, fetchDecodeExecute, State.fetch_of_ge hpc]

/-! ### The key edges (R164, R165) -/

theorem keyDown_of_down {k : KeyIdx} (h : s.key k = true) : keyDown k s = s := if_pos h

theorem keyDown_of_up {k : KeyIdx} (h : s.key k = false) : keyDown k s = keyPressEdge k (s.setKey k true) := by
  rw [keyDown, h]
  rfl

theorem keyPressEdge_of_waiting {x : RegIdx} (k : KeyIdx) (h : s.err.kind = .none) (hw : s.wait = some x) :
    keyPressEdge k s = { (s.setV x (BitVec.ofNat 8 k.val)).advance with wait := none } := by
  rw [keyPressEdge, (State.not_halted_iff s).2 h, hw]
  rfl

/-- On a halted core, or on one that does not wait, an edge completes nothing. -/
theorem keyPressEdge_of_not_waiting (k : KeyIdx) (h : s.err.kind ≠ .none ∨ s.wait = none) :
    keyPressEdge k s = s := by
  rw [keyPressEdge]
  by_cases hs : s.err.kind = .none
  · have awake : s.wait = none := h.resolve_left fun halted => halted hs
    rw [(State.not_halted_iff s).2 hs, awake]
    rfl
  · rw [(State.halted_iff s).2 hs]
    rfl

/-- A press that completes no key-wait, edge or not, sets that key. -/
theorem keyDown_of_not_waiting (k : KeyIdx) (h : s.err.kind ≠ .none ∨ s.wait = none) :
    keyDown k s = s ∨ keyDown k s = s.setKey k true := by
  cases hk : s.key k
  · exact .inr ((keyDown_of_up hk).trans (keyPressEdge_of_not_waiting k h))
  · exact .inl (keyDown_of_down hk)

theorem onlyChanges_keyDown_of_not_waiting (k : KeyIdx) (h : s.err.kind ≠ .none ∨ s.wait = none) :
    OnlyChanges s (keyDown k s) fun p => p = .key k := by
  rcases keyDown_of_not_waiting k h with e | e <;> rw [e]
  · exact OnlyChanges.rfl
  · exact onlyChanges_setKey s k true

/-! ### Load (R181) -/

/-- The state after an accepted load (tied to the model by `hostLoad_of_le`). -/
def State.placed (s : State) (image : List Byte) : State :=
  { s with
    mem := s.mem.load image
    pc := 0x200
    dt := 0
    st := 0
    fb := Frame.clear
    keys := Vector.replicate 16 false
    wait := none }

theorem hostLoad_of_le {image : List Byte} (h : image.length ≤ 3584) : hostLoad image s = s.placed image :=
  if_pos h

theorem hostLoad_of_gt {image : List Byte} (h : 3584 < image.length) :
    hostLoad image s = s.raise .loadError 0 (lengthSaturated image.length) :=
  if_neg (Nat.not_le.2 h)

/-- Memory below the load address stays. -/
theorem onlyChanges_placed (s : State) (image : List Byte) :
    OnlyChanges s (s.placed image) fun p => p = .pc ∨ p = .dt ∨ p = .st ∨ p = .wait ∨ p.IsPixel ∨
      (∃ k, p = .key k) ∨ (∃ a, 0x200 ≤ a ∧ p = .byte a) := by
  intro p hp
  cases p
  case byte a =>
    have low : a < 0x200 := by simpa [Part.IsPixel] using hp
    exact (s.mem.read_load image a).trans (if_pos low)
  case pc | dt | st | wait | pixel | key => simp [Part.IsPixel] at hp
  all_goals exact Eq.refl _

theorem key_of_released (h : s.keys = Vector.replicate 16 false) (k : KeyIdx) : s.key k = false := by
  simp [State.key, h]

/-! ### The halted core (R156, R157) -/

/-- What a halted core keeps whatever event but a reset comes. -/
structure StaysHalted (s t : State) : Prop where
  halted : t.err.kind ≠ .none
  regs : ∀ r, t.getV r = s.getV r
  index : t.i = s.i
  stack : t.stack = s.stack

theorem StaysHalted.refl (h : s.err.kind ≠ .none) : StaysHalted s s := ⟨h, fun _ => rfl, rfl, rfl⟩

theorem staysHalted_deliver {e : Event} (h : s.err.kind ≠ .none) (he : e ≠ .reset) (ht : deliver e s = .next t) :
    StaysHalted s t := by
  cases e
  case step =>
    rw [deliver, cpuStep_of_halted h] at ht
    cases ht
    exact .refl h
  case tick =>
    rw [deliver, timerTick_of_halted h] at ht
    cases ht
    exact .refl h
  case keyDown k =>
    cases ht
    rcases keyDown_of_not_waiting k (.inl h) with e | e <;> rw [e]
    · exact .refl h
    · exact ⟨h, fun _ => rfl, rfl, rfl⟩
  case keyUp k =>
    cases ht
    exact ⟨h, fun _ => rfl, rfl, rfl⟩
  case reset => exact absurd rfl he
  case load image =>
    cases ht
    rcases Nat.lt_or_ge 3584 image.length with long | fits
    · rw [hostLoad_of_gt long]
      exact ⟨nofun, fun _ => rfl, rfl, rfl⟩
    · rw [hostLoad_of_le fits]
      exact ⟨h, fun _ => rfl, rfl, rfl⟩

/-! ### The end of a run (R189) -/

/-- The word of D29 is that of the jump to its own address. -/
theorem word_of_jump (a : Addr) : (0x1000 ||| addr16 a : Word) = encode (.jp a) := by
  have split : (0x1000 : Word) = 0x1#4 ++ 0#12 := rfl
  have low : addr16 a = 0#4 ++ a := by
    apply BitVec.eq_of_toNat_eq
    rw [addr16_toNat, BitVec.toNat_append]
    simp
  rw [split, low, BitVec.or_append]
  simp [encode, formatA]

/-- The end of a run depends on PC, memory, ERR and WAIT alone. -/
theorem State.EndedAt.congr {a : Addr} (h : s.EndedAt a) (hpc : t.pc = s.pc) (hmem : t.mem = s.mem)
    (herr : t.err = s.err) (hwait : t.wait = s.wait) : t.EndedAt a := by
  unfold State.EndedAt
  rw [hpc, hmem, herr, hwait]
  exact h

theorem cpuStep_of_ended {a : Addr} (h : s.EndedAt a) : cpuStep s = .next s := by
  obtain ⟨here, inRange, word, safe, awake⟩ := h
  have pc : s.pc.toNat = a.toNat := by rw [here, addr16_toNat]
  have decoded : decodeWord (s.mem.word s.pc.toNat) = .ok (.jp a) := by
    rw [pc, word, word_of_jump, decodeWord_encode]
  rw [cpuStep_of_decoded ⟨safe, awake⟩ (by omega) decoded, exec_jp, ← here, State.jump_self]

/-! ### The obligations -/

/-- Settles O6: the CPU step at a word that decodes, with the `step` event taken off the list where there is one. -/
theorem stepRunsDecodedInstruction : Obligations.StepRunsDecodedInstruction := by
  intro s i hr hpc hd
  constructor
  · intro hin
    rw [step_of_no_event hin hr.1, cpuStep_of_decoded hr hpc hd]
  · intro rest hin
    rw [step_of_event hin]
    exact cpuStep_of_decoded (s := { s with inputs := rest }) hr hpc hd

/-- Settles O7, by the CPU step at a PC that cannot be fetched from. -/
theorem fetchOutOfBoundsTakesError : Obligations.FetchOutOfBoundsTakesError := by
  intro s hr hin hpc
  rw [step_of_no_event hin hr.1, cpuStep_of_outOfRange hr hpc]
  exact ⟨_, rfl, rfl, onlyChanges_raise s _ _ _⟩

/-- Settles O8: a word outside the opcode map does not decode. -/
theorem unknownWordTakesError : Obligations.UnknownWordTakesError := by
  intro s hr hin hpc hw
  rw [step_of_no_event hin hr.1, cpuStep_of_unknown hr hpc (decodeWord_of_not_wordWf hw)]
  exact ⟨_, rfl, rfl, onlyChanges_raise s _ _ _⟩

/-- Settles O9: the suspended CPU step, and the latch written with what it holds. -/
theorem suspendedStepChangesNothing : Obligations.SuspendedStepChangesNothing := by
  intro s x hs hw
  refine ⟨fun hin => ?_, fun rest hin => ?_, ?_⟩
  · rw [step_of_no_event hin hs, cpuStep_of_waiting hs hw]
  · rw [step_of_event hin]
    exact cpuStep_of_waiting (s := { s with inputs := rest }) hs hw
  · rw [exec_of_fits (i := .ldVxK x) id, Instr.effect, ← hw]

/-- Settles O10: the two triggers do nothing, and with no event the step is stuck. -/
theorem haltedCoreDoesNothing : Obligations.HaltedCoreDoesNothing := by
  intro s hs
  refine ⟨fun rest hin => ?_, fun rest hin => ?_, fun hin => step_of_no_event_halted hin hs⟩
  · rw [step_of_event hin]
    exact cpuStep_of_halted (s := { s with inputs := rest }) hs
  · rw [step_of_event hin, deliver, timerTick_of_halted (s := { s with inputs := rest }) hs]

/-- Settles O11: the delivery of each event. -/
theorem eventsAreStepsOfTheirAgents : Obligations.EventsAreStepsOfTheirAgents := by
  intro s rest
  exact ⟨step_of_event, fun _ => step_of_event, fun _ => step_of_event, step_of_event, fun _ => step_of_event⟩

/-- Settles O44: a press is no edge, or an edge that completes the wait, or an edge that completes nothing. -/
theorem keyEdges : Obligations.KeyEdges := by
  intro k s
  refine ⟨keyDown_of_down, fun up => ?_, fun x up hs hw => ?_, fun _ h => ?_, ?_, onlyChanges_setKey s k false⟩
  · rw [keyDown_of_up up]
    by_cases h : s.err.kind ≠ .none ∨ s.wait = none
    · rw [keyPressEdge_of_not_waiting (s := s.setKey k true) k h, State.key_setKey, if_pos rfl]
    · obtain ⟨safe, waits⟩ := not_or.1 h
      obtain ⟨x, hw⟩ := Option.ne_none_iff_exists'.1 waits
      rw [keyPressEdge_of_waiting (s := s.setKey k true) k (not_not.1 safe) hw]
      exact (State.key_setKey s k k true).trans (if_pos rfl)
  · rw [keyDown_of_up up, keyPressEdge_of_waiting (s := s.setKey k true) k hs hw]
    refine ⟨?_, rfl, rfl, ?_⟩
    · have latched : ((s.setKey k true).setV x (BitVec.ofNat 8 k.val)).getV x = BitVec.ofNat 8 k.val :=
        (State.getV_setV _ x x _).trans (if_pos rfl)
      have index := k.isLt
      show (((s.setKey k true).setV x (BitVec.ofNat 8 k.val)).getV x).toNat = k.val
      rw [latched, BitVec.toNat_ofNat]
      omega
    · exact (((onlyChanges_setKey s k true).mono fun _ => .inl).trans
        ((onlyChanges_setV_advance _ x _).mono fun _ => by tauto)).trans
        ((onlyChanges_wait _ none).mono fun _ => by tauto)
  · exact onlyChanges_keyDown_of_not_waiting k h
  · exact (State.key_setKey s k k false).trans (if_pos rfl)

theorem onlyChanges_inputs (s : State) (l : List Event) :
    OnlyChanges s { s with inputs := l } fun p => p = .inputs := by
  intro p hp
  cases p
  case inputs => exact absurd rfl hp
  all_goals exact Eq.refl _

/-- Settles O46, by induction on the events: a step changes the list alone, a tick the timers too. -/
theorem timersRunWhileSuspended : Obligations.TimersRunWhileSuspended := by
  intro evs rest s x hev hs hw hin
  induction evs generalizing s with
  | nil => exact ⟨s, rfl, rfl, rfl, hin, OnlyChanges.rfl⟩
  | cons e evs ih =>
    have event : step s = deliver e { s with inputs := evs ++ rest } := step_of_event hin
    have later : ∀ e' ∈ evs, e' = .step ∨ e' = .tick := fun e' he' => hev e' (List.mem_cons_of_mem _ he')
    have listed := (onlyChanges_inputs s (evs ++ rest)).mono (Q := fun p => p = .dt ∨ p = .st ∨ p = .inputs)
      fun _ h => .inr (.inr h)
    rcases hev e List.mem_cons_self with rfl | rfl
    · have next := event.trans (cpuStep_of_waiting (s := { s with inputs := evs ++ rest }) hs hw)
      obtain ⟨t, run, hdt, hst, hrest, frame⟩ := ih { s with inputs := evs ++ rest } later hs hw rfl
      refine ⟨t, (core_run_succ next).trans run, ?_, ?_, hrest, listed.trans frame⟩
      · rw [hdt, List.count_cons_of_ne (by decide)]
      · rw [hst, List.count_cons_of_ne (by decide)]
    · rw [deliver, timerTick_of_safe (s := { s with inputs := evs ++ rest }) hs] at event
      obtain ⟨t, run, hdt, hst, hrest, frame⟩ :=
        ih { s with inputs := evs ++ rest, dt := countDown s.dt, st := countDown s.st } later hs hw rfl
      refine ⟨t, (core_run_succ event).trans run, ?_, ?_, hrest, (listed.trans ?_).trans frame⟩
      · rw [hdt, List.count_cons_self, countDown_toNat]
        omega
      · rw [hst, List.count_cons_self, countDown_toNat]
        omega
      · exact (onlyChanges_timers _ _ _).mono fun _ h => h.imp_right .inl

/-- Settles O54: each event but a reset keeps a halted core halted. -/
theorem haltedUntilReset : Obligations.HaltedUntilReset := by
  intro s t hs noReset h
  rcases step_cases s with ⟨e, rest, hin, he⟩ | ⟨-, -, he⟩ | ⟨-, safe, -⟩
  · have notReset : e ≠ .reset := fun e_eq => noReset rest (e_eq ▸ hin)
    obtain ⟨halted, regs, index, stack⟩ :=
      staysHalted_deliver (s := { s with inputs := rest }) hs notReset (he.symm.trans h)
    exact ⟨halted, regs, index, stack⟩
  · rw [he] at h
    cases h
  · exact absurd safe hs

/-- Settles O55: both states are the reset values with some list of events and some count of draws. -/
theorem resetLeavesResetValues : Obligations.ResetLeavesResetValues := by
  intro s t ht
  obtain ⟨l, n, rfl⟩ : ∃ l n, t = { State.reset with inputs := l, draws := n } := by
    rcases ht with rfl | rfl
    · exact ⟨s.inputs, s.draws, rfl⟩
    · exact ⟨[], 0, rfl⟩
  refine ⟨fun r => ?_, rfl, rfl, rfl, rfl, rfl, Frame.pixel_clear, key_of_released rfl, rfl, rfl,
    fun k hk => ?_, fun a ha => ?_, rfl, rfl⟩
  · simp [State.getV, State.reset]
  · show Config.resetByte (Config.fontBase + k) = _
    rw [Config.resetByte, if_pos ⟨by omega, by omega⟩, Nat.add_sub_cancel_left]
  · show Config.resetByte a = 0
    rw [Config.resetByte, if_neg (by omega)]

/-- Settles O56: an accepted image as `read_load` says, a rejected one as an error. -/
theorem loadPlacesImageOrTakesLoadError : Obligations.LoadPlacesImageOrTakesLoadError := by
  intro image s
  constructor
  · intro fits
    rw [hostLoad_of_le fits]
    refine ⟨fun k hk => ?_, fun a ha => ?_, rfl, rfl, rfl, Frame.pixel_clear, key_of_released rfl, rfl,
      onlyChanges_placed s image⟩
    · show (s.mem.load image).read (0x200 + k) = _
      rw [Memory.read_load, if_neg (by omega), if_pos (by omega), Nat.add_sub_cancel_left]
    · show (s.mem.load image).read a = 0
      rw [Memory.read_load, if_neg (by omega), if_neg (by omega)]
  · intro long
    rw [hostLoad_of_gt long]
    exact ⟨rfl, onlyChanges_raise s _ _ _⟩

/-- Settles O57: the jump to itself writes back PC, and no other agent touches what the end of a run depends on. -/
theorem endedRunStaysEnded : Obligations.EndedRunStaysEnded := by
  intro s a h
  have ⟨_, _, _, safe, awake⟩ := h
  refine ⟨fun hin => ?_, ?_, onlyChanges_timerTick s, fun k => ⟨?_, ?_, ?_, ?_⟩⟩
  · rw [step_of_no_event hin safe, cpuStep_of_ended h]
  · rw [timerTick_of_safe safe]
    exact h
  · rcases keyDown_of_not_waiting k (.inr awake) with e | e <;> rw [e] <;> exact h
  · exact onlyChanges_keyDown_of_not_waiting k (.inr awake)
  · exact h
  · exact onlyChanges_setKey s k false

end Sys2Proof.Machine
end

section
/-!
PROOFS. The invariant of the core (10_state, derived bounds): what each clause needs of an effect, then that the CPU and
every other agent keep it, and that reset meets it.
-/

namespace Sys2Proof.Machine

variable {s : State} {i : Instr}

/-! ### The clauses over an effect -/

/-- An effect leaves memory, or is one of the two stores, whose bytes are in range. -/
theorem mem_wf_effect (hm : s.mem.wf) (fits : ¬ i.CheckFails s) : (i.effect s).mem.wf := by
  cases i
  case ldBVx x =>
    have inRange : s.i.toNat + 2 < 4096 := Nat.not_le.1 fits
    have length : (bcdDigits (s.getV x)).length = 3 := length_bcdDigits _
    exact Memory.wf_writeBytes _ hm (by omega)
  case ldMemVx x =>
    have inRange : s.i.toNat + x.val < 4096 := Nat.not_le.1 fits
    have length : (s.regsUpTo x).length = x.val + 1 := s.length_regsUpTo x
    exact Memory.wf_writeBytes _ hm (by omega)
  case ldVxMem x =>
    obtain ⟨v, e⟩ := effect_ldVxMem x s
    rw [e]
    exact hm
  all_goals exact hm

/-- I is a 12-bit literal, a sum reduced to 12 bits, the address of one of the sixteen glyphs, or as it was. -/
theorem index_effect_lt (h : s.i.toNat < 4096) : (i.effect s).i.toNat < 4096 := by
  cases i
  case ldI nnn => exact (addr16_toNat nnn).trans_lt nnn.isLt
  case addIVx x =>
    show (BitVec.ofNat 16 (s.indexSum x % 4096)).toNat < 4096
    rw [BitVec.toNat_ofNat]
    omega
  case ldFVx x =>
    show (glyphAddr (s.lowNibble x)).toNat < 4096
    rw [glyphAddr_toNat, Config.fontBase]
    omega
  case ldVxMem x =>
    obtain ⟨v, e⟩ := effect_ldVxMem x s
    rw [e]
    exact h
  all_goals exact h

/-- The stack is popped by `RET`, pushed by `CALL` where there is room, and left by the rest. -/
theorem stack_effect_cases (fits : ¬ i.CheckFails s) :
    (i.effect s).stack = s.stack ∨ (i.effect s).stack = s.stack.tail ∨
      (s.stack.length < 16 ∧ (i.effect s).stack = (s.pc + 2) :: s.stack) := by
  cases i
  case ret => exact .inr (.inl rfl)
  case call nnn => exact .inr (.inr ⟨Nat.not_le.1 fits, rfl⟩)
  case ldVxMem x =>
    obtain ⟨v, e⟩ := effect_ldVxMem x s
    exact .inl (by rw [e]; rfl)
  all_goals exact .inl rfl

theorem depth_effect_le (h : s.stack.length ≤ 16) (fits : ¬ i.CheckFails s) : (i.effect s).stack.length ≤ 16 := by
  rcases stack_effect_cases fits with e | e | ⟨room, e⟩ <;> rw [e]
  · exact h
  · rw [List.length_tail]
    omega
  · exact room

theorem returns_effect_le (h : ∀ a ∈ s.stack, a.toNat ≤ 0x1000) (hpc : s.pc.toNat < 4095)
    (fits : ¬ i.CheckFails s) : ∀ a ∈ (i.effect s).stack, a.toNat ≤ 0x1000 := by
  rcases stack_effect_cases fits with e | e | ⟨-, e⟩ <;> rw [e]
  · exact h
  · exact fun a ha => h a (List.mem_of_mem_tail ha)
  · refine List.forall_mem_cons.2 ⟨?_, h⟩
    rw [toNat_pc_add_two hpc]
    omega

/-- The furthest target of the table of R71 is that of `JP V0`, 0xFFF + 0xFF (R13). -/
theorem pcAfter_le (hret : ∀ a ∈ s.stack, a.toNat ≤ 0x1000) (hpc : s.pc.toNat < 4095)
    (fits : ¬ i.CheckFails s) : i.pcAfter s ≤ 0x10FE := by
  cases i
  case jp nnn | call nnn =>
    have := nnn.isLt
    show nnn.toNat ≤ 0x10FE
    omega
  case jpV0 nnn =>
    have := nnn.isLt
    have := (s.getV 0).isLt
    show nnn.toNat + (s.getV 0).toNat ≤ 0x10FE
    omega
  case ret =>
    obtain ⟨a, rest, top⟩ := List.exists_cons_of_ne_nil fun empty => fits (s.sp_eq_zero_iff.2 empty)
    have entry : a.toNat ≤ 0x1000 := hret a (top ▸ List.mem_cons_self)
    rw [Instr.pcAfter, State.stackEntry_top top]
    show a.toNat ≤ 0x10FE
    omega
  case seImm | sneImm | seReg | sneReg | skp | sknp =>
    rw [Instr.pcAfter]
    split <;> omega
  all_goals
    simp only [Instr.pcAfter]
    omega

/-- Only the key-wait arms the latch, and it leaves PC. -/
theorem waiting_effect (hw : s.wait = none) (h : (i.effect s).wait.isSome = true) : (i.effect s).pc = s.pc := by
  cases i
  case ldVxK x => rfl
  case ldVxMem x =>
    obtain ⟨v, e⟩ := effect_ldVxMem x s
    rw [e, State.advance_wait, hw] at h
    cases h
  all_goals
    have awake : s.wait.isSome = true := h
    rw [hw] at awake
    cases awake

/-! ### The invariant kept -/

theorem inv_effect (h : s.Inv) (hw : s.wait = none) (hpc : s.pc.toNat < 4095) (fits : ¬ i.CheckFails s) :
    (i.effect s).Inv where
  mem := mem_wf_effect h.mem fits
  index := index_effect_lt h.index
  depth := depth_effect_le h.depth fits
  returns := returns_effect_le h.returns hpc fits
  pc := (pc_effect hpc fits).trans_le (pcAfter_le h.returns hpc fits)
  waiting := fun waits => (waiting_effect hw waits).symm ▸ hpc
  clear := by
    rw [effect_err]
    exact h.clear
  bounds := by
    rw [effect_err]
    exact h.bounds

/-- Taking an error keeps the invariant, given what the record says of an address out of bounds. -/
theorem inv_raise {k : ErrKind} {w a : Word} (h : s.Inv) (hk : k ≠ .none)
    (ha : k = .memoryBoundsError → 4096 ≤ a.toNat) : (s.raise k w a).Inv where
  mem := h.mem
  index := h.index
  depth := h.depth
  returns := h.returns
  pc := h.pc
  waiting := h.waiting
  clear := fun noError => absurd noError hk
  bounds := ha

theorem reported_address_ge (a : Word) : 4096 ≤ (BitVec.ofNat 16 (max a.toNat 4096)).toNat := by
  have := a.isLt
  rw [BitVec.toNat_ofNat]
  omega

theorem inv_failure (h : s.Inv) : (i.failure s).Inv := by
  unfold Instr.failure
  split
  · exact inv_raise h nofun nofun
  · exact inv_raise h nofun nofun
  · exact inv_raise h nofun fun _ => reported_address_ge s.i

theorem inv_cpuStep {t : State} (h : s.Inv) (ht : cpuStep s = .next t) : t.Inv := by
  rcases cpuStep_cases s with ⟨-, e⟩ | ⟨-, -, e⟩ | ⟨-, -, e⟩ | ⟨-, -, -, e⟩ |
    ⟨⟨-, awake⟩, hpc, i, -, e⟩ <;> rw [e] at ht
  · cases ht
    exact h
  · cases ht
    exact h
  · cases ht
    exact inv_raise h nofun fun _ => reported_address_ge s.pc
  · cases ht
    exact inv_raise h nofun nofun
  · rcases exec_cases i s with ⟨fits, e⟩ | ⟨-, e⟩ <;> rw [e] at ht <;> cases ht
    · exact inv_effect h awake hpc fits
    · exact inv_failure h

/-- The invariant says nothing of the events to come, the timers, the keys and the registers. -/
theorem inv_inputs (l : List Event) (h : s.Inv) : { s with inputs := l }.Inv :=
  ⟨h.mem, h.index, h.depth, h.returns, h.pc, h.waiting, h.clear, h.bounds⟩

theorem inv_timerTick (h : s.Inv) : (timerTick s).Inv := by
  by_cases hs : s.err.kind = .none
  · rw [timerTick_of_safe hs]
    exact ⟨h.mem, h.index, h.depth, h.returns, h.pc, h.waiting, h.clear, h.bounds⟩
  · rw [timerTick_of_halted hs]
    exact h

theorem inv_setKey (k : KeyIdx) (b : Bool) (h : s.Inv) : (s.setKey k b).Inv :=
  ⟨h.mem, h.index, h.depth, h.returns, h.pc, h.waiting, h.clear, h.bounds⟩

/-- The completion of a key-wait moves PC on from the fetchable address the core waits at. -/
theorem inv_keyPressEdge (k : KeyIdx) (h : s.Inv) : (keyPressEdge k s).Inv := by
  by_cases hw : s.err.kind ≠ .none ∨ s.wait = none
  · rw [keyPressEdge_of_not_waiting k hw]
    exact h
  · obtain ⟨safe, waits⟩ := not_or.1 hw
    obtain ⟨x, hx⟩ := Option.ne_none_iff_exists'.1 waits
    rw [keyPressEdge_of_waiting k (not_not.1 safe) hx]
    have fetchable : s.pc.toNat < 4095 := h.waiting (by rw [hx]; rfl)
    have next : (s.pc + 2).toNat ≤ 0x10FE := by
      rw [toNat_pc_add_two fetchable]
      omega
    exact ⟨h.mem, h.index, h.depth, h.returns, next, nofun, h.clear, h.bounds⟩

theorem inv_keyDown (k : KeyIdx) (h : s.Inv) : (keyDown k s).Inv := by
  cases hk : s.key k
  · rw [keyDown_of_up hk]
    exact inv_keyPressEdge k (inv_setKey k true h)
  · rw [keyDown_of_down hk]
    exact h

theorem inv_reset (l : List Event) (n : Nat) : { State.reset with inputs := l, draws := n }.Inv where
  mem := State.reset_mem_wf
  index := (by decide : State.reset.i.toNat < 4096)
  depth := Nat.zero_le 16
  returns := nofun
  pc := (by decide : State.reset.pc.toNat ≤ 0x10FE)
  waiting := nofun
  clear := fun _ => rfl
  bounds := nofun

theorem inv_hostLoad (image : List Byte) (h : s.Inv) : (hostLoad image s).Inv := by
  rcases Nat.lt_or_ge 3584 image.length with long | fits
  · rw [hostLoad_of_gt long]
    exact inv_raise h nofun nofun
  · rw [hostLoad_of_le fits]
    have entry : (0x200 : Word).toNat ≤ 0x10FE := by decide
    exact ⟨Memory.wf_load h.mem fits, h.index, h.depth, h.returns, entry, nofun, h.clear, h.bounds⟩

/-! ### The obligations -/

/-- Settles O58: the CPU and each of the other agents keep it, so every step does. -/
theorem stepKeepsInvariant : Obligations.StepKeepsInvariant := by
  intro s t hs h
  exact step_preserves (P := State.Inv) (fun _ => inv_inputs) (fun _ _ => inv_cpuStep) (fun _ => inv_timerTick)
    (fun k _ => inv_keyDown k) (fun k _ => inv_setKey k false) (fun s _ => inv_reset s.inputs s.draws)
    (fun image _ => inv_hostLoad image) hs h

/-- Settles O59: the reset values with no event to come and no draw made. -/
theorem resetMeetsInvariant : Obligations.ResetMeetsInvariant := inv_reset [] 0

end Sys2Proof.Machine
end

section
/-!
PROOFS. Fair unending runs (60_exceptions R162): on a suspended core the timers are bounded by ever smaller numbers as
the ticks come; on a running core nothing but the timers moves before the first step event.
-/

namespace Sys2Proof.Machine

/-! ### A suspended core under steps, ticks and key-ups -/

/-- A core that waits for `V[x]` at `pc` with both timers at most `d`. -/
structure WaitsWithin (x : RegIdx) (pc : Word) (d : Nat) (s : State) : Prop where
  safe : s.err.kind = .none
  wait : s.wait = some x
  pc : s.pc = pc
  dt : s.dt.toNat ≤ d
  st : s.st.toNat ≤ d

/-- The events that complete no key-wait and are not the host's reset or load. -/
def Event.LeavesWait (e : Event) : Prop := e = .step ∨ e = .tick ∨ ∃ k, e = .keyUp k

section

variable {x : RegIdx} {pc : Word} {d : Nat} {s : State} {sched : Schedule}

theorem WaitsWithin.timerTick (h : WaitsWithin x pc d s) : WaitsWithin x pc (d - 1) (timerTick s) := by
  rw [timerTick_of_safe h.safe]
  refine ⟨h.safe, h.wait, h.pc, ?_, ?_⟩
  · exact (countDown_toNat s.dt).trans_le (Nat.sub_le_sub_right h.dt 1)
  · exact (countDown_toNat s.st).trans_le (Nat.sub_le_sub_right h.st 1)

theorem WaitsWithin.mono {d' : Nat} (h : WaitsWithin x pc d s) (hd : d ≤ d') : WaitsWithin x pc d' s :=
  ⟨h.safe, h.wait, h.pc, h.dt.trans hd, h.st.trans hd⟩

theorem WaitsWithin.inputs (h : WaitsWithin x pc d s) (l : List Event) : WaitsWithin x pc d { s with inputs := l } :=
  ⟨h.safe, h.wait, h.pc, h.dt, h.st⟩

/-- A tick of the run lowers the bound. -/
theorem WaitsWithin.next_tick {n : Nat} (h : WaitsWithin x pc d (runAt sched s n)) (he : sched n = .tick) :
    WaitsWithin x pc (d - 1) (runAt sched s (n + 1)) := by
  rw [runAt_succ (by rw [he]; rfl)]
  exact (h.inputs []).timerTick

/-- No event of the run raises it. -/
theorem WaitsWithin.next_event {n : Nat} (h : WaitsWithin x pc d (runAt sched s n)) (he : (sched n).LeavesWait) :
    WaitsWithin x pc d (runAt sched s (n + 1)) := by
  have idle := h.inputs []
  rcases he with he | he | ⟨k, he⟩
  · rw [runAt_succ (by rw [he]; exact cpuStep_of_waiting idle.safe idle.wait)]
    exact idle
  · exact (h.next_tick he).mono (Nat.sub_le d 1)
  · rw [runAt_succ (by rw [he]; rfl)]
    exact ⟨h.safe, h.wait, h.pc, h.dt, h.st⟩

theorem WaitsWithin.later {n m : Nat} (h : WaitsWithin x pc d (runAt sched s n))
    (hev : ∀ n, (sched n).LeavesWait) (hm : n ≤ m) : WaitsWithin x pc d (runAt sched s m) := by
  induction m, hm using Nat.le_induction with
  | base => exact h
  | succ m _ ih => exact ih.next_event (hev m)

/-- With ticks that keep coming the bound goes down to zero, by induction on it. -/
theorem exists_waitsWithin_zero (hfair : KeepsComing sched s .tick State.Safe)
    (hev : ∀ n, (sched n).LeavesWait) (d : Nat) :
    ∀ n, WaitsWithin x pc d (runAt sched s n) → ∃ m, WaitsWithin x pc 0 (runAt sched s m) := by
  induction d with
  | zero => exact fun n h => ⟨n, h⟩
  | succ d ih =>
    intro n h
    obtain ⟨m, hm, tick⟩ := hfair n fun m hm => (h.later hev hm).safe
    exact ih (m + 1) ((h.later hev hm).next_tick tick)

theorem WaitsWithin.timers_eq_zero (h : WaitsWithin x pc 0 s) : s.dt = 0 ∧ s.st = 0 :=
  ⟨BitVec.eq_of_toNat_eq (Nat.le_zero.1 h.dt), BitVec.eq_of_toNat_eq (Nat.le_zero.1 h.st)⟩

end

/-! ### A running core before its first step -/

/-- What a run of ticks from a running core leaves: the core runs on, and the timers alone have moved. -/
structure OnlyTicked (s t : State) : Prop where
  running : t.Running
  frame : OnlyChanges s t fun p => p = .dt ∨ p = .st ∨ p = .inputs

theorem onlyTicked_runAt {sched : Schedule} {s : State} (hs : s.Running) {n : Nat}
    (hev : ∀ m, m < n → sched m = .tick) : OnlyTicked s (runAt sched s n) := by
  induction n with
  | zero => exact ⟨hs, OnlyChanges.rfl⟩
  | succ n ih =>
    obtain ⟨⟨safe, awake⟩, frame⟩ := ih fun m hm => hev m (by omega)
    rw [runAt_succ (by rw [hev n (by omega)]; rfl),
      timerTick_of_safe (s := { runAt sched s n with inputs := [] }) safe]
    refine ⟨⟨safe, awake⟩, frame.trans (((onlyChanges_inputs _ []).mono fun _ h => .inr (.inr h)).trans ?_)⟩
    exact (onlyChanges_timers _ _ _).mono fun _ h => h.imp_right .inl

/-- The step event comes: were every event a tick, the core would run for ever. -/
theorem exists_step {sched : Schedule} {s : State} (hs : s.Running)
    (hfair : KeepsComing sched s .step State.Running) (hev : ∀ n, sched n = .step ∨ sched n = .tick) :
    ∃ n, sched n = .step := by
  by_contra never
  have ticks : ∀ n, sched n = .tick := fun n => (hev n).resolve_left fun step => never ⟨n, step⟩
  obtain ⟨n, -, step⟩ := hfair 0 fun m _ => (onlyTicked_runAt hs fun k _ => ticks k).running
  exact never ⟨n, step⟩

/-! ### The obligation -/

/-- Settles O60: the two halves above, the second up to the first step event. -/
theorem fairRunsMakeProgress : Obligations.FairRunsMakeProgress := by
  intro sched s hfair
  constructor
  · intro x hs hw hev
    have start : WaitsWithin x s.pc (max s.dt.toNat s.st.toNat) (runAt sched s 0) :=
      ⟨hs, hw, rfl, le_max_left _ _, le_max_right _ _⟩
    obtain ⟨n, out⟩ := exists_waitsWithin_zero hfair.ticks hev _ 0 start
    refine ⟨n, fun m hm => ?_⟩
    have still := out.later hev hm
    exact ⟨still.timers_eq_zero.1, still.timers_eq_zero.2, still.wait, still.pc⟩
  · intro hs hev
    have comes := exists_step hs hfair.steps hev
    refine ⟨Nat.find comes, Nat.find_spec comes, (onlyTicked_runAt hs fun m hm => ?_).frame⟩
    exact (hev m).resolve_left (Nat.find_min comes hm)

end Sys2Proof.Machine
end
